-- ==== Sys2Proof/Word.lean ====
section
/-! DEFINITION. The one data width of the hardware (R6, R11 of 00_scope.md). -/

namespace Sys2Proof

/-- `DATA_WIDTH` = 8: A, X, P, program bytes and operand bytes (R6). -/
abbrev Byte := BitVec 8

end Sys2Proof
end

