-- ==== Sys2Proof/Config.lean ====
section
/-! DEFINITION. What this hardware fixes (R6 of 00_scope.md, D2 of 92_eei_decisions.md). The spec leaves no value
of an instruction open, so there is no free value here. -/

namespace Sys2Proof

/-- `PC_WIDTH`: 8 for this hardware, kept as a named parameter (R6, R28, D2). Definitions that depend on it take it
as an argument with this default. -/
abbrev Config.pcWidth : Nat := 8

/-- `MAX_PROGRAM_LEN` = 2^PC_WIDTH (R6, R41), also the past-the-end value of the program counter (R28). -/
abbrev Config.maxProgramLen (pcWidth : Nat := Config.pcWidth) : Nat := 2 ^ pcWidth

end Sys2Proof
end

