-- ==== Sys2Proof/Machine/State.lean ====
section
/-! DEFINITION. The state of the core as plain data (10_state.md), its reset value (R145 of 70_reset_and_hazards.md) and
the reasons a transition can stop. -/

namespace Sys2Proof.Machine

/-- The flag names; an enumeration with no architected code. The bit positions come from `flagBit` alone (R70, R71). -/
inductive Flag where
  /-- carry -/
  | c
  /-- zero -/
  | z
  /-- interrupt disable -/
  | i
  /-- decimal mode -/
  | d
  /-- break -/
  | b
  /-- overflow -/
  | v
  /-- negative -/
  | n
  deriving DecidableEq, Repr

/-- The run status (R26). -/
inductive RunStatus where
  | idle | running | halted | faulted
  deriving DecidableEq, Repr

/-- The two kinds of failure (R27, R122). -/
inductive ErrorKind where
  | unimplementedOpcode | programCounterOutOfBounds
  deriving DecidableEq, Repr

/-- The error record: kind, position, and the byte for UnimplementedOpcode only (R27, R124). -/
inductive ErrorRecord where
  /-- The byte fetched as an opcode at `position` has no entry in the decode table (R120). -/
  | unimplementedOpcode (position : Nat) (byte : Byte)
  /-- An opcode fetch or an operand read at `position`, past the program (R121). -/
  | programCounterOutOfBounds (position : Nat)
  deriving DecidableEq, Repr

/-- The program space as address and byte cells (R40, R43). Canonical form: addresses 0, 1, ..., L-1 in rising order
(`Memory.wf`); an address not listed reads as no value (R42). -/
abbrev Memory := List Host.Cell

/-- All the spec gives the machine (R20 to R28), and the program of the current run, which the spec counts as an input
(R30) and the model holds here [log 1]. -/
structure State where
  /-- accumulator A (R20) -/
  a : Byte
  /-- index register X (R21) -/
  x : Byte
  /-- status register P, the whole byte, N V - B D I Z C (R23) -/
  p : Byte
  /-- program counter PC: index of the next byte to fetch; exact, it never wraps (R28) [log 4] -/
  pc : Nat
  /-- run status (R26) -/
  status : RunStatus
  /-- error record (R27) -/
  error : Option ErrorRecord
  /-- the program of the current run (R40) -/
  program : Memory
  deriving DecidableEq, Repr

/-- The construction state (R145); no program has been supplied [log 1]. -/
def State.reset : State :=
  { a := 0x00#8, x := 0x00#8, p := 0x00#8, pc := 0, status := .idle, error := none, program := [] }

/-- Reasons for a stop by a fault. There is none: both error kinds of the spec have an entry the spec describes (R124,
R125), which the step takes as a next state [log 2]. Nobody raises it, which is safe. -/
inductive Fault where
  deriving DecidableEq, Repr

/-- Reasons for a refusal. -/
inductive Refusal where
  /-- An instruction without a meaning. Raised by an arm of exec only, and no arm does. Safe. -/
  | notModelled (mnemonic : String)
  /-- `cmd_run` with a program longer than 2^PC_WIDTH, refused at launch (R41, D2). Raised by the host command only, never
  by a step. Safe. -/
  | programTooLong
  deriving DecidableEq, Repr

end Sys2Proof.Machine
end

