-- ==== Sys2Proof/Machine/Flags.lean ====
section
/-! DEFINITION. `status_register_pack`: the operations on the status byte (40_status_register_pack.md), and the flag
policies of the ALU (R80, R81, R83, R84 of 41_alu_with_flag_logic.md). -/

namespace Sys2Proof.Machine

/-- `FlagBit`, the explicit lookup table from flag name to bit index (R70). -/
def flagBit : Flag → Nat
  | .c => 0
  | .z => 1
  | .i => 2
  | .d => 3
  | .b => 4
  | .v => 6
  | .n => 7

/-- `1 << FlagBit(f)`. -/
def flagMask (f : Flag) : Byte := 1#8 <<< flagBit f

/-- `set(f)` (R72). -/
def setFlag (f : Flag) (p : Byte) : Byte := p ||| flagMask f

/-- `unset(f)` (R73). -/
def unsetFlag (f : Flag) (p : Byte) : Byte := p &&& ~~~ flagMask f

/-- `toggle(f)` (R74); no instruction uses it. -/
def toggleFlag (f : Flag) (p : Byte) : Byte := p ^^^ flagMask f

/-- `read(f)` (R75); true is 1. -/
def readFlag (f : Flag) (p : Byte) : Bool := p.getLsbD (flagBit f)

/-- `raw()`: the whole byte, bit 5 as stored (R76). -/
def rawFlags (p : Byte) : Byte := p

/-- `ZN(r)`: z is r = 0x00, n is bit 7 of r (R80). -/
def znPolicy (r : Byte) : Bool × Bool := (r == 0x00#8, r.getLsbD 7)

/-- Writes given Z and N values into P, by `set` or `unset` of each (R81). -/
def writeZN (zn : Bool × Bool) (p : Byte) : Byte :=
  let p := if zn.1 then setFlag .z p else unsetFlag .z p
  if zn.2 then setFlag .n p else unsetFlag .n p

/-- `ApplyZN(r)`: the one zero/negative policy shared by every instruction that writes A or X (R81). -/
def applyZN (r : Byte) (p : Byte) : Byte := writeZN (znPolicy r) p

/-- `CarryAdd(a, b, cin)`: the result modulo 256 and the carry out of bit 7 of the exact sum. Bound to no opcode (R83). -/
def carryAdd (a b : Byte) (cin : Bool) : Byte × Bool :=
  let s := a.toNat + b.toNat + cin.toNat
  (BitVec.ofNat 8 s, s.testBit 8)

/-- The subtract form of the carry policy: `CarryAdd(a, NOT b, C)`, carry 1 when no borrow occurs. Bound to no opcode
(R83). -/
def carrySub (a b : Byte) (cin : Bool) : Byte × Bool := carryAdd a (~~~ b) cin

/-- `OverflowAdd(a, b, r)`: bit 7 of (a XOR r) AND (b XOR r). Bound to no opcode (R84). -/
def overflowAdd (a b r : Byte) : Bool := ((a ^^^ r) &&& (b ^^^ r)).getLsbD 7

end Sys2Proof.Machine
end

