-- ==== Sys2Proof/Machine/Alu.lean ====
section
/-! DEFINITION. `alu_with_flag_logic`: the combinational result operations (R10 of 00_scope.md, R82 of
41_alu_with_flag_logic.md). -/

namespace Sys2Proof.Machine

/-- The result operations the decoded effect selects (R82). -/
inductive AluOp where
  | pass | inc
  deriving DecidableEq, Repr

/-- The outputs of the ALU: the result and the two flag values computed from it (R10). -/
structure AluOut where
  result : Byte
  zn     : Bool × Bool
  deriving DecidableEq, Repr

/-- The result alone: `Pass(v) = v`, `Inc(v) = (v + 1) mod 256`. The wrap is no error and touches no carry or overflow
(R82). -/
def aluResult (op : AluOp) (v : Byte) : Byte :=
  match op with
  | .pass => v
  | .inc => BitVec.ofNat 8 ((v.toNat + 1) % 256)

/-- The ALU: it writes no state (R10). -/
def alu (op : AluOp) (v : Byte) : AluOut :=
  let r := aluResult op v
  { result := r, zn := znPolicy r }

end Sys2Proof.Machine
end

