-- ==== Sys2Proof/Machine/Memory.lean ====
section
/-! DEFINITION. The program space (20_memory.md): its one read, its canonical form, and laying out a supplied byte
sequence. The hardware has no write (R11, R40). -/

namespace Sys2Proof.Machine

/-- `MemRead(i, 1)`: the byte at index i, or no value where the program has none there, which the caller turns into
ProgramCounterOutOfBounds; never a zero, a wrapped index or another run's byte (R42). -/
def Memory.read (m : Memory) (i : Nat) : Option Byte :=
  match m with
  | [] => none
  | (k, b) :: rest => if k = i then some b else Memory.read rest i

/-- `len(prog)` (R11, R40). -/
def Memory.len (m : Memory) : Nat := m.length

/-- The cells' addresses are k, k+1, k+2, ... -/
def Memory.contiguousFrom (k : Nat) (m : Memory) : Bool :=
  match m with
  | [] => true
  | (a, _) :: rest => a == k && Memory.contiguousFrom (k + 1) rest

/-- The canonical form: a byte sequence addressed from index 0, no longer than 2^PC_WIDTH (R40, R41). -/
def Memory.wf (m : Memory) (pcWidth : Nat := Config.pcWidth) : Bool :=
  Memory.contiguousFrom 0 m && decide (m.len ≤ Config.maxProgramLen pcWidth)

/-- The cells of a byte sequence laid out from index k. -/
def Memory.layFrom (k : Nat) (bytes : List Byte) : Memory :=
  match bytes with
  | [] => []
  | b :: rest => (k, b) :: Memory.layFrom (k + 1) rest

/-- The program space of a supplied byte sequence, addressed from index 0 (R40, R47). -/
def Memory.ofBytes (bytes : List Byte) : Memory := Memory.layFrom 0 bytes

end Sys2Proof.Machine
end

