-- ==== Sys2Proof/Machine/Ops.lean ====
section
/-! DEFINITION. The named operations over the registers that the instructions share, and taking an exception
(R95 of 42_execution_cycle.md, R124, R125 of 60_exceptions.md). -/

namespace Sys2Proof.Machine

/-- The commit of the program counter: `PC <- start + length`, exact, with no wrap (R92, R95, R98). -/
def State.advance (length : Nat) (s : State) : State :=
  { s with pc := s.pc + length }

/-- The sequencer writes an ALU result to A and its flag values to Z and N of P (R10, R81, R95). -/
def State.commitA (out : AluOut) (s : State) : State :=
  { s with a := out.result, p := writeZN out.zn s.p }

/-- The sequencer writes an ALU result to X and its flag values to Z and N of P (R10, R81, R95). -/
def State.commitX (out : AluOut) (s : State) : State :=
  { s with x := out.result, p := writeZN out.zn s.p }

/-- `status <- Halted` (R115). -/
def State.halt (s : State) : State :=
  { s with status := .halted }

/-- TAKING AN EXCEPTION: `error <- (kind, position, byte)`, `status <- Faulted`; A, X, P and PC keep the values they had
at the start of the step, nothing is saved elsewhere, and control goes to no handler (R124, R125). There is no return
from an exception: only a host command leads on (R127). -/
def State.raise (e : ErrorRecord) (s : State) : State :=
  { s with error := some e, status := .faulted }

/-- The start of a run on an admitted program: `PC <- 0`, `status <- Running`, `error <- none`; A, X and P keep their
values (R90). -/
def State.startRun (program : Memory) (s : State) : State :=
  { s with pc := 0, status := .running, error := none, program := program }

end Sys2Proof.Machine
end

