-- ==== Sys2Proof/Machine/Control.lean ====
section
/-! DEFINITION. The control instruction BRK (44_control.md). -/

namespace Sys2Proof.Machine

/-- `BRK`: `PC <- start + 1`, `status <- Halted`; no flag and no register is written (R115). -/
def execBrk (s : State) : Host.Outcome State Fault Refusal :=
  .next ((s.advance 1).halt)

end Sys2Proof.Machine
end

