-- ==== Sys2Proof/Machine/Register.lean ====
section
/-! DEFINITION. The register instructions LDA immediate, TAX and INX (43_register_ops.md). Each runs after its bytes
have been read; `s.pc` is the index of its opcode. -/

namespace Sys2Proof.Machine

/-- `LDA #imm8` (R105). -/
def execLda (imm8 : Byte) (s : State) : Host.Outcome State Fault Refusal :=
  .next ((s.advance 2).commitA (alu .pass imm8))

/-- `TAX` (R106). -/
def execTax (s : State) : Host.Outcome State Fault Refusal :=
  .next ((s.advance 1).commitX (alu .pass s.a))

/-- `INX` (R107). -/
def execInx (s : State) : Host.Outcome State Fault Refusal :=
  .next ((s.advance 1).commitX (alu .inc s.x))

end Sys2Proof.Machine
end

