-- ==== Sys2Proof/Syntax.lean ====
section
/-! DEFINITION. The instructions and the shape of a decode-table entry (30_encoding.md). -/

namespace Sys2Proof

/-- One constructor per row of spec/opcode_table.json (R2, R55). -/
inductive Instr where
  /-- `BRK`, implied: halt (R115). -/
  | brk
  /-- `LDA #imm8`, immediate: load accumulator (R105). -/
  | lda (imm8 : Byte)
  /-- `TAX`, implied: transfer accumulator to X (R106). -/
  | tax
  /-- `INX`, implied: increment X (R107). -/
  | inx
  deriving DecidableEq, Repr

/-- The mnemonic a table entry carries as metadata, with no effect on execution (R55, R63). -/
inductive Mnemonic where
  | BRK | LDA | TAX | INX
  deriving DecidableEq, Repr

/-- The two formats (R56). -/
inductive Format where
  /-- The opcode byte alone. -/
  | implied
  /-- The opcode byte, then `imm8`. -/
  | immediate
  deriving DecidableEq, Repr

/-- The effects a hit can name (R9, R55). -/
inductive Effect where
  | halt | loadAImm | transferAX | incX
  deriving DecidableEq, Repr

/-- A present entry of the decode table: `Hit(mnemonic, operand_len, effect)` with its format (R55). -/
structure TableEntry where
  mnemonic   : Mnemonic
  format     : Format
  operandLen : Nat
  effect     : Effect
  deriving DecidableEq, Repr

/-- Why no instruction can be read at an index: the three ways a step can fail before its commit point, in the order
in which R123 lets them fail. -/
inductive DecodeError where
  /-- No opcode byte at the index (R91). -/
  | noOpcode (position : Nat)
  /-- The opcode byte is a lookup miss (R93). -/
  | unimplementedOpcode (position : Nat) (byte : Byte)
  /-- An operand byte is missing at the index (R94). -/
  | noOperand (position : Nat)
  deriving DecidableEq, Repr

/-- The operand bytes an instruction carries, in program order (R56). -/
def Instr.operands : Instr → List Byte
  | .brk => []
  | .lda imm8 => [imm8]
  | .tax => []
  | .inx => []

/-- The effect an instruction stands for (R55). -/
def Instr.effect : Instr → Effect
  | .brk => .halt
  | .lda _ => .loadAImm
  | .tax => .transferAX
  | .inx => .incX

/-- The format each effect is encoded in (R55, R56). -/
def Effect.format : Effect → Format
  | .halt => .implied
  | .loadAImm => .immediate
  | .transferAX => .implied
  | .incX => .implied

/-- How many operand bytes a format has (R56). -/
def Format.operandLen : Format → Nat
  | .implied => 0
  | .immediate => 1

end Sys2Proof
end

