-- ==== Sys2Proof/Machine/Dispatch.lean ====
section
/-! DEFINITION. The effect arm of each instruction (R96 of 42_execution_cycle.md). -/

namespace Sys2Proof.Machine

/-- The effect of a decoded instruction at the program counter. -/
def exec (i : Instr) (s : State) : Host.Outcome State Fault Refusal :=
  match i with
  | .brk => Sys2Proof.Machine.execBrk s
  | .lda imm8 => Sys2Proof.Machine.execLda imm8 s
  | .tax => Sys2Proof.Machine.execTax s
  | .inx => Sys2Proof.Machine.execInx s

end Sys2Proof.Machine
end

