-- ==== Sys2Proof/WellFormed.lean ====
section
/-! DEFINITION. The checks on raw terms: table entries, operand lists, instructions and programs. -/

namespace Sys2Proof

/-- A table entry's operand length is its format's, and its format is its effect's (R55, R56). -/
def TableEntry.wellFormed (e : TableEntry) : Bool :=
  e.operandLen == e.format.operandLen && e.format == e.effect.format

/-- As many operand bytes as the entry announces (R56, R60). -/
def TableEntry.operandsFit (e : TableEntry) (operands : List Byte) : Bool :=
  operands.length == e.operandLen

/-- An instruction carries exactly the operand bytes its format has. Every term of `Instr` does: the operand is a field
of the constructor and a `Byte` by its type. -/
def Instr.wellFormed (i : Instr) : Bool :=
  i.operands.length == i.effect.format.operandLen

/-- A program is admitted for a run only if its length is at most 2^PC_WIDTH; the empty program is admitted (R41). -/
def programAdmitted (bytes : List Byte) (pcWidth : Nat := Config.pcWidth) : Bool :=
  decide (bytes.length ≤ Config.maxProgramLen pcWidth)

end Sys2Proof
end

