-- ==== Sys2Proof/Decode.lean ====
section
/-! DEFINITION. The `instruction_decoder` (R9, R55 to R62 of 30_encoding.md), the reading of one instruction from a
byte source, and the encoder. -/

namespace Sys2Proof

/-- The present entries of the decode table, opcode by opcode (R55). -/
def opcodeRows : List (Byte × TableEntry) :=
  [ (0x00#8, ⟨.BRK, .implied,   0, .halt⟩),
    (0xA9#8, ⟨.LDA, .immediate, 1, .loadAImm⟩),
    (0xAA#8, ⟨.TAX, .implied,   0, .transferAX⟩),
    (0xE8#8, ⟨.INX, .implied,   0, .incX⟩) ]

/-- `Decode(op) = Table[op]`: `some` is a hit, `none` a miss; total, and a function of the whole opcode byte alone
(R61, R62). -/
def decodeOpcode (op : Byte) : Option TableEntry :=
  opcodeRows.lookup op

/-- The instruction an effect and its operand bytes make; none where the operands do not fit the effect, which no row of
the table lets happen (Laws: `instrOf_table`). -/
def instrOf (e : Effect) (operands : List Byte) : Option Instr :=
  match e, operands with
  | .halt, [] => some .brk
  | .loadAImm, [imm8] => some (.lda imm8)
  | .transferAX, [] => some .tax
  | .incX, [] => some .inx
  | _, _ => none

/-- The operand reads: `n` bytes from index `i` on, in order; the first index without a byte ends them (R94). -/
def readOperands (read : Nat → Option Byte) : (n i : Nat) → Except Nat (List Byte)
  | 0, _ => .ok []
  | n + 1, i =>
    match read i with
    | none => .error i
    | some b =>
      match readOperands read n (i + 1) with
      | .error k => .error k
      | .ok bs => .ok (b :: bs)

/-- Reads the instruction at index `start` of a byte source: fetch, advance, decode, operand reads, in the order of R91
to R94; nothing is read after the failure or after the last operand. A row whose operands do not fit its effect would be
no entry, hence a miss [log 7]; there is no such row. -/
def decodeAt (read : Nat → Option Byte) (start : Nat) : Except DecodeError Instr :=
  match read start with
  | none => .error (.noOpcode start)
  | some op =>
    match decodeOpcode op with
    | none => .error (.unimplementedOpcode start op)
    | some e =>
      match readOperands read e.operandLen (start + 1) with
      | .error i => .error (.noOperand i)
      | .ok operands =>
        match instrOf e.effect operands with
        | none => .error (.unimplementedOpcode start op)
        | some i => .ok i

/-- The bytes an instruction takes: 1 + operand_len (R60). -/
def Instr.length (i : Instr) : Nat := 1 + i.operands.length

/-- Decodes the head of a byte list: the instruction and the bytes after it. Total on any bytes; each refusal has its
name. -/
def decode (bytes : List Byte) : Except DecodeError (Instr × List Byte) :=
  match decodeAt (fun i => bytes[i]?) 0 with
  | .error e => .error e
  | .ok i => .ok (i, bytes.drop i.length)

/-- The opcode byte of an instruction (R55). -/
def Instr.opcode : Instr → Byte
  | .brk => 0x00#8
  | .lda _ => 0xA9#8
  | .tax => 0xAA#8
  | .inx => 0xE8#8

/-- The bytes of an instruction: byte 0 the opcode, then its operands at the next indices (R56, R63). -/
def encode (i : Instr) : List Byte :=
  i.opcode :: i.operands

/-- The bytes a table word lays out: bits 7..0 at the first index, bits 15..8 at the next; bits from `nbits` on are 0.
Two bytes, the longest instruction (R56). -/
def tableWordBytes (nbits w : Nat) : List Byte :=
  let v := w % 2 ^ nbits
  [BitVec.ofNat 8 v, BitVec.ofNat 8 (v / 256)]

/-- The instruction the decoder reads from a table word; none where it refuses. -/
def decodeTableWord (nbits w : Nat) : Option Instr :=
  match decode (tableWordBytes nbits w) with
  | .ok (i, _) => some i
  | .error _ => none

end Sys2Proof
end

