-- ==== Sys2Proof/Machine/Operands.lean ====
section
/-! DEFINITION. The one instruction and operand form that reads memory: the bytes at the program counter (R57 of
30_encoding.md, R91 to R94 of 42_execution_cycle.md). -/

namespace Sys2Proof.Machine

/-- The error a failed reading raises (R120, R121). -/
def errorOf : DecodeError → ErrorRecord
  | .noOpcode position => .programCounterOutOfBounds position
  | .unimplementedOpcode position byte => .unimplementedOpcode position byte
  | .noOperand position => .programCounterOutOfBounds position

/-- The fetch, decode and operand reads of one step at the program counter: the instruction, or the error the step
raises (R91 to R94). It writes nothing. -/
def fetch (s : State) : Except ErrorRecord Instr :=
  match decodeAt (fun i => s.program.read i) s.pc with
  | .ok i => .ok i
  | .error e => .error (errorOf e)

end Sys2Proof.Machine
end

