-- ==== Sys2Proof/Machine/Cycle.lean ====
section
/-! DEFINITION. The body of one step (R96 of 42_execution_cycle.md), and launching one instruction for the host. -/

namespace Sys2Proof.Machine

/-- One step. While Running it is R96: fetch the instruction at the program counter and take its effect, or take the
exception. In Idle, Halted and Faulted the core takes no step (R26): the state stays as it is [log 3]. -/
def cycle (s : State) : Host.Outcome State Fault Refusal :=
  match s.status with
  | .running =>
    match fetch s with
    | .ok i => exec i s
    | .error e => .next (s.raise e)
  | .idle => .next s
  | .halted => .next s
  | .faulted => .next s

/-- `s` launched, as `cmd_run` launches it (R90), on the program that consists of the table word's bytes: the next step
fetches them at index 0 [log 6]. -/
def State.launchWord (s : State) (nbits w : Nat) : State :=
  s.startRun (Memory.ofBytes (tableWordBytes nbits w))

end Sys2Proof.Machine
end

