-- ==== Sys2Proof/Machine/Step.lean ====
section
/-! DEFINITION. One step of the core, and placing one instruction for the host. -/

namespace Sys2Proof.Machine

/-- One step of the core (R96). -/
def step (s : State) : Host.Outcome State Fault Refusal := cycle s

/-- `s` with the instruction of a table word placed where the next step fetches it [log 6]. -/
def State.withFetchWord (s : State) (nbits w : Nat) : State := s.launchWord nbits w

end Sys2Proof.Machine
end

