-- ==== Sys2Proof/Machine/Commands.lean ====
section
/-! DEFINITION. The host's side of the core: the three commands and the outputs (R7 of 00_scope.md, R29 of 10_state.md,
R90 of 42_execution_cycle.md, R145, R147, R148, R150 of 70_reset_and_hazards.md). -/

namespace Sys2Proof.Machine

/-- The command inputs of the block (R7). -/
inductive Command where
  /-- `cmd_reset` -/
  | reset
  /-- `cmd_preload(a, x, p)` -/
  | preload (a x p : Byte)
  /-- `cmd_run` on a supplied program -/
  | run (bytes : List Byte)
  deriving DecidableEq, Repr

/-- `cmd_reset`: the construction state; the program, an input, is not touched (R145, R147). -/
def State.cmdReset (s : State) : State :=
  { State.reset with program := s.program }

/-- `cmd_preload(a, x, p)`: any three bytes, bit 5 included; PC, status and error unchanged (R29). -/
def State.cmdPreload (a x p : Byte) (s : State) : State :=
  { s with a := a, x := x, p := p }

/-- One host command, an atomic transition. During a run the host has no access, so a command has no effect (R29, R150)
[log 5]. A program too long for PC_WIDTH is refused at launch (R41). -/
def State.command (c : Command) (s : State) (pcWidth : Nat := Config.pcWidth) : Host.Outcome State Fault Refusal :=
  match s.status, c with
  | .running, _ => .next s
  | _, .reset => .next s.cmdReset
  | _, .preload a x p => .next (s.cmdPreload a x p)
  | _, .run bytes =>
    if programAdmitted bytes pcWidth then .next (s.startRun (Memory.ofBytes bytes)) else .refused .programTooLong

/-- The outputs of the block, which are also the observation of a run; the program counter is not among them (R7, R101,
D19). -/
structure Outputs where
  a      : Byte
  x      : Byte
  pRaw   : Byte
  status : RunStatus
  error  : Option ErrorRecord
  deriving DecidableEq, Repr

/-- The `flag(f)` output (R7, R75). -/
def Outputs.flag (o : Outputs) (f : Flag) : Bool := readFlag f o.pRaw

/-- What the output ports carry. -/
def State.outputs (s : State) : Outputs :=
  { a := s.a, x := s.x, pRaw := rawFlags s.p, status := s.status, error := s.error }

/-- The host reads the outputs only while status is not Running: during a run it sees nothing (R150, D25). -/
def State.hostRead (s : State) : Option Outputs :=
  match s.status with
  | .running => none
  | .idle => some s.outputs
  | .halted => some s.outputs
  | .faulted => some s.outputs

/-- The record's kind (R27). -/
def errorKind : ErrorRecord → ErrorKind
  | .unimplementedOpcode _ _ => .unimplementedOpcode
  | .programCounterOutOfBounds _ => .programCounterOutOfBounds

/-- The record's position (R27). -/
def errorPosition : ErrorRecord → Nat
  | .unimplementedOpcode position _ => position
  | .programCounterOutOfBounds position => position

/-- The record's byte, present for UnimplementedOpcode only (R27). -/
def errorByte : ErrorRecord → Option Byte
  | .unimplementedOpcode _ byte => some byte
  | .programCounterOutOfBounds _ => none

/-- The kind code on the `error` port: 0 none, 1 UnimplementedOpcode, 2 ProgramCounterOutOfBounds (R120, R121, R124). -/
def errorCode (error : Option ErrorRecord) : Nat :=
  match error with
  | none => 0
  | some (.unimplementedOpcode _ _) => 1
  | some (.programCounterOutOfBounds _) => 2

end Sys2Proof.Machine
end

