-- ==== Sys2Proof/Safety.lean ====
section
/-! DEFINITION. The terms in which claims about the core are stated: the status byte after the zero/negative policy, the
invariant of the core, what the host can tell apart, and the effect of a straight line of instructions on A, X and P. -/

namespace Sys2Proof.Safety

open Sys2Proof.Machine

/-- The status byte after the zero/negative policy for result `r`, in the mask form R81 gives beside its pseudocode:
`(P AND 0x7D) OR (n << 7) OR (z << 1)`. -/
def flagsAfter (r p : Byte) : Byte :=
  (p &&& 0x7D#8) ||| (if 0x80 ≤ r.toNat then 0x80#8 else 0x00#8) ||| (if r.toNat = 0 then 0x02#8 else 0x00#8)

/-- The error record tells the truth about the state that holds it: an unimplemented opcode is the byte at the program
counter, where the fault left it, and has no table entry (R120, R125); an out-of-bounds position is the first index past
the program (R121). -/
def recordAccurate (s : State) (e : ErrorRecord) : Prop :=
  match e with
  | .unimplementedOpcode position byte =>
    position = s.pc ∧ s.program.read position = some byte ∧ decodeOpcode byte = none
  | .programCounterOutOfBounds position =>
    position = s.program.len

/-- The invariant of the core for a given PC_WIDTH: the program is in canonical form and admitted (R40, R41), the program
counter is an index of it or the past-the-end index (R28), there is an error record exactly in Faulted (R26, R27, R124),
and the record is accurate. -/
structure Inv (pcWidth : Nat) (s : State) : Prop where
  program_wf : s.program.wf pcWidth = true
  pc_range : s.pc ≤ s.program.len
  error_iff_faulted : s.error.isSome = true ↔ s.status = .faulted
  error_accurate : ∀ e, s.error = some e → recordAccurate s e

/-- The run has ended (R97, R101). -/
def ended (s : State) : Prop := s.status = .halted ∨ s.status = .faulted

/-- The bytes the program holds from an index on, up to the first index without one; at most `n`. -/
def bytesFrom (m : Memory) : (n i : Nat) → List Byte
  | 0, _ => []
  | n + 1, i =>
    match m.read i with
    | none => []
    | some b => b :: bytesFrom m n (i + 1)

/-- How many bytes from index `i` on a step at `i` may read: its opcode, and its operands where the opcode has an entry
(R48, R60). -/
def readSpan (m : Memory) (i : Nat) : Nat :=
  match m.read i with
  | none => 1
  | some op =>
    match decodeOpcode op with
    | none => 1
    | some e => 1 + e.operandLen

/-- A, X and P, the registers of the observation (R101). -/
structure Regs where
  a : Byte
  x : Byte
  p : Byte
  deriving DecidableEq, Repr

/-- A, X and P of a state. -/
def regsOf (s : State) : Regs := { a := s.a, x := s.x, p := s.p }

/-- What R105 to R107 and R115 say an instruction does to A, X and P. -/
def regsAfter (r : Regs) (i : Instr) : Regs :=
  match i with
  | .brk => r
  | .lda imm8 => { r with a := imm8, p := flagsAfter imm8 r.p }
  | .tax => { r with x := r.a, p := flagsAfter r.a r.p }
  | .inx => { r with x := r.x + 1#8, p := flagsAfter (r.x + 1#8) r.p }

/-- The bytes of a list of instructions, one after the other (R56). -/
def encodeAll (is : List Instr) : List Byte := is.flatMap encode

end Sys2Proof.Safety
end

