-- ==== Sys2Proof/Certificates/Slice0/Obligations.lean ====
section
/-! DEFINITION. The statements about the core, each from the numbered rules of spec/. -/

open Sys2Proof Sys2Proof.Machine Sys2Proof.Safety

/-! ### Reset and the host's commands -/

/-- R145: the construction state, and `cmd_reset` puts the core in exactly it. -/
def Obligations.ResetLeavesConstructionState : Prop :=
  (State.reset.a = 0x00#8 ∧ State.reset.x = 0x00#8 ∧ State.reset.p = 0x00#8 ∧ State.reset.pc = 0 ∧
    State.reset.status = .idle ∧ State.reset.error = none) ∧
  ∀ s : State, s.status ≠ .running →
    ∃ t, s.command .reset = .next t ∧ t.a = 0x00#8 ∧ t.x = 0x00#8 ∧ t.p = 0x00#8 ∧ t.pc = 0 ∧
      t.status = .idle ∧ t.error = none

/-- R147: `cmd_reset` has the same result whatever the previous state, twice is once, and the program is not touched. -/
def Obligations.ResetForgetsThePreviousState : Prop :=
  ∀ s s' : State, s.status ≠ .running → s'.status ≠ .running →
    ∃ t t', s.command .reset = .next t ∧ s'.command .reset = .next t' ∧
      t.a = t'.a ∧ t.x = t'.x ∧ t.p = t'.p ∧ t.pc = t'.pc ∧ t.status = t'.status ∧ t.error = t'.error ∧
      t.program = s.program ∧ t'.program = s'.program ∧ t.command .reset = .next t

/-- R29: `cmd_preload` writes A, X and P and nothing else; during a run it has no effect. -/
def Obligations.PreloadWritesOnlyAXP : Prop :=
  ∀ (s : State) (a x p : Byte),
    (s.status ≠ .running →
      ∃ t, s.command (.preload a x p) = .next t ∧ t.a = a ∧ t.x = x ∧ t.p = p ∧
        t.pc = s.pc ∧ t.status = s.status ∧ t.error = s.error ∧ t.program = s.program) ∧
    (s.status = .running → s.command (.preload a x p) = .next s)

/-- R90: `cmd_run` on an admitted program, for any PC_WIDTH. -/
def Obligations.RunStartsAtIndexZero : Prop :=
  ∀ (w : Nat) (s : State) (bytes : List Byte), s.status ≠ .running → bytes.length ≤ 2 ^ w →
    ∃ t, s.command (.run bytes) w = .next t ∧ t.pc = 0 ∧ t.status = .running ∧ t.error = none ∧
      t.a = s.a ∧ t.x = s.x ∧ t.p = s.p ∧ t.program.len = bytes.length ∧ ∀ i, t.program.read i = bytes[i]?

/-- R41: a program is admitted exactly up to 2^PC_WIDTH bytes; a longer one has no run; the empty one runs, and its first
fetch raises ProgramCounterOutOfBounds at position 0. -/
def Obligations.ProgramsAreAdmittedUpToTheirLimit : Prop :=
  ∀ (w : Nat) (s : State) (bytes : List Byte), s.status ≠ .running →
    (2 ^ w < bytes.length → s.command (.run bytes) w = .refused .programTooLong) ∧
    (bytes.length ≤ 2 ^ w → ∃ t, s.command (.run bytes) w = .next t ∧ t.status = .running) ∧
    ∃ t, s.command (.run []) w = .next t ∧ t.status = .running ∧
      step t = .next { t with error := some (.programCounterOutOfBounds 0), status := .faulted }

/-- R148's sequence: reset, preload, run. It leaves a running core at index 0 with the preloaded registers. -/
def Obligations.BootSequenceReachesARun : Prop :=
  ∀ (s : State) (a x p : Byte) (bytes : List Byte), s.status ≠ .running → bytes.length ≤ 256 →
    ∃ r l t, s.command .reset = .next r ∧ r.command (.preload a x p) = .next l ∧ l.command (.run bytes) = .next t ∧
      t.a = a ∧ t.x = x ∧ t.p = p ∧ t.pc = 0 ∧ t.status = .running ∧ t.error = none ∧
      ∀ i, t.program.read i = bytes[i]?

/-- R150, R101, R7: the host reads A, X, P, every flag, status and error, and only outside a run; the program counter is
not among the outputs. -/
def Obligations.HostReadsOutputsOutsideRunsOnly : Prop :=
  ∀ s : State,
    (s.status = .running → s.hostRead = none) ∧
    (s.status ≠ .running → ∃ o, s.hostRead = some o ∧ o.a = s.a ∧ o.x = s.x ∧ o.pRaw = s.p ∧
      o.status = s.status ∧ o.error = s.error ∧ ∀ f, o.flag f = readFlag f s.p) ∧
    ∀ k, ({ s with pc := k } : State).hostRead = s.hostRead

/-! ### The program space -/

/-- R42, R40: MemRead of a supplied program is its byte below the length and no value from there on. -/
def Obligations.MemReadIsTheSuppliedByte : Prop :=
  ∀ (bytes : List Byte) (i : Nat),
    (∀ h : i < bytes.length, (Memory.ofBytes bytes).read i = some bytes[i]) ∧
    (bytes.length ≤ i → (Memory.ofBytes bytes).read i = none)

/-- R40, R51: no step writes the program: every index reads as before. -/
def Obligations.NoStepWritesTheProgram : Prop :=
  ∀ s t : State, step s = .next t → t.program = s.program ∧ ∀ i, t.program.read i = s.program.read i

/-- R48: a step's outcome does not depend on any byte but the opcode at PC and the operand bytes the opcode's entry
announces. -/
def Obligations.StepDependsOnItsOwnBytesOnly : Prop :=
  ∀ (s : State) (m : Memory),
    (∀ k, k < readSpan s.program s.pc → m.read (s.pc + k) = s.program.read (s.pc + k)) →
    ∃ t, step s = .next t ∧ step { s with program := m } = .next { t with program := m }

/-! ### The decoder -/

/-- R55: the table has exactly four hits. -/
def Obligations.DecoderTableHasFourHits : Prop :=
  ∀ op : Byte, decodeOpcode op =
    if op = 0x00#8 then some ⟨.BRK, .implied, 0, .halt⟩
    else if op = 0xA9#8 then some ⟨.LDA, .immediate, 1, .loadAImm⟩
    else if op = 0xAA#8 then some ⟨.TAX, .implied, 0, .transferAX⟩
    else if op = 0xE8#8 then some ⟨.INX, .implied, 0, .incX⟩
    else none

/-- R55, R56, R63: a few encodings, written out bit by bit, decode to the instructions they stand for; the bytes after
are left. -/
def Obligations.SampleBytesDecode : Prop :=
  decode [0b00000000#8] = .ok (.brk, []) ∧
  decode [0b10101001#8, 0b11000000#8, 0b10101010#8] = .ok (.lda 0xC0#8, [0xAA#8]) ∧
  decode [0b10101010#8] = .ok (.tax, []) ∧
  decode [0b11101000#8, 0b00000000#8] = .ok (.inx, [0x00#8]) ∧
  decode [0b10101001#8] = .error (.noOperand 1) ∧
  decode [0b00000101#8, 0b00000000#8] = .error (.unimplementedOpcode 0 0x05#8) ∧
  decode [] = .error (.noOpcode 0)

/-- Decoding the bytes of any well-formed instruction, whatever follows them, gives it back and leaves what follows. -/
def Obligations.DecodeInvertsEncode : Prop :=
  ∀ (i : Instr) (rest : List Byte), i.wellFormed = true → decode (encode i ++ rest) = .ok (i, rest)

/-- Every byte list that decodes begins with the encoding of the instruction it decodes to: an instruction has one
encoding. -/
def Obligations.EncodeInvertsDecode : Prop :=
  ∀ (bytes rest : List Byte) (i : Instr), decode bytes = .ok (i, rest) → bytes = encode i ++ rest ∧ i.wellFormed = true

/-- Wherever an instruction's bytes stand in a supplied program behind the bytes of other instructions, a step there runs
exactly that instruction. -/
def Obligations.EncodedInstructionRunsWhereItStands : Prop :=
  ∀ (before : List Instr) (i : Instr) (tail : List Byte) (s : State), s.status = .running →
    s.program = Memory.ofBytes (encodeAll before ++ encode i ++ tail) → s.pc = (encodeAll before).length →
    step s = exec i s

/-! ### The step -/

/-- R96: when the bytes at the program counter decode to an instruction, a step is its effect, with nothing around it. -/
def Obligations.StepRunsTheDecodedInstruction : Prop :=
  ∀ (s : State) (n : Nat) (i : Instr) (rest : List Byte), s.status = .running →
    decode (bytesFrom s.program n s.pc) = .ok (i, rest) → step s = exec i s

/-- R91, R93, R94: when they do not decode, a step takes the exception the failure stands for, at the failure's offset from
the program counter. -/
def Obligations.StepRaisesTheDecodeFailure : Prop :=
  ∀ (s : State) (n : Nat), s.status = .running → 2 ≤ n →
    (∀ k, decode (bytesFrom s.program n s.pc) = .error (.noOpcode k) →
      step s = .next { s with error := some (.programCounterOutOfBounds (s.pc + k)), status := .faulted }) ∧
    (∀ k op, decode (bytesFrom s.program n s.pc) = .error (.unimplementedOpcode k op) →
      step s = .next { s with error := some (.unimplementedOpcode (s.pc + k) op), status := .faulted }) ∧
    (∀ k, decode (bytesFrom s.program n s.pc) = .error (.noOperand k) →
      step s = .next { s with error := some (.programCounterOutOfBounds (s.pc + k)), status := .faulted })

/-- THE MODEL'S CHOICE (assumption log 3; R26 and D9 say that the core takes no step there): in Idle, Halted and Faulted a
step of the model leaves the state as it is. -/
def Obligations.StoppedCoreStaysAsItIs : Prop :=
  ∀ s : State, s.status ≠ .running → step s = .next s

/-- R98: every completed step moves the program counter past the opcode and its operand bytes, and nowhere else; the run
goes on unless the opcode was BRK. -/
def Obligations.CompletedStepIsSequential : Prop :=
  ∀ s t : State, s.status = .running → step s = .next t → t.status ≠ .faulted →
    ∃ op e, s.program.read s.pc = some op ∧ decodeOpcode op = some e ∧ t.pc = s.pc + 1 + e.operandLen ∧
      (op = 0x00#8 ↔ t.status = .halted) ∧ (op ≠ 0x00#8 ↔ t.status = .running)

/-- R100: the outcome of a step is a function of A, X, P, PC and the program alone. Two running states that agree on these
give the same A, X, P, PC, program and status, and the same error record where the step raises; where it does not raise,
each keeps its own. -/
def Obligations.StepIsAFunctionOfRegistersAndProgram : Prop :=
  ∀ s s' : State, s.status = .running → s'.status = .running →
    s.a = s'.a → s.x = s'.x → s.p = s'.p → s.pc = s'.pc → s.program = s'.program →
    ∃ t t', step s = .next t ∧ step s' = .next t' ∧ t.a = t'.a ∧ t.x = t'.x ∧ t.p = t'.p ∧ t.pc = t'.pc ∧
      t.program = t'.program ∧ t.status = t'.status ∧
      (t.status = .faulted → t.error = t'.error) ∧
      (t.status ≠ .faulted → t.error = s.error ∧ t'.error = s'.error)

/-- R25: no instruction reads any flag: with another status byte a step does the same to everything but P. -/
def Obligations.NoStepReadsAFlag : Prop :=
  ∀ (s : State) (q : Byte),
    ∃ t u, step s = .next t ∧ step { s with p := q } = .next u ∧ u.a = t.a ∧ u.x = t.x ∧ u.pc = t.pc ∧
      u.status = t.status ∧ u.error = t.error ∧ u.program = t.program

/-- R24, R25: no step changes C, I, D, B, V or bit 5. -/
def Obligations.StepsWriteNoFlagButZAndN : Prop :=
  ∀ s t : State, step s = .next t →
    (∀ f, f ≠ .z → f ≠ .n → readFlag f t.p = readFlag f s.p) ∧ t.p.getLsbD 5 = s.p.getLsbD 5

/-! ### The instructions -/

/-- R105: LDA immediate. Its bytes, its effect (everything it does not write is as before), the step that runs it, and the
step whose operand byte is missing. -/
def Obligations.LdaLoadsItsImmediate : Prop :=
  ∀ (imm8 : Byte) (s : State),
    encode (.lda imm8) = [0xA9#8, imm8] ∧
    exec (.lda imm8) s = .next { s with a := imm8, p := flagsAfter imm8 s.p, pc := s.pc + 2 } ∧
    (s.status = .running → s.program.read s.pc = some 0xA9#8 → s.program.read (s.pc + 1) = some imm8 →
      step s = .next { s with a := imm8, p := flagsAfter imm8 s.p, pc := s.pc + 2 }) ∧
    (s.status = .running → s.program.read s.pc = some 0xA9#8 → s.program.read (s.pc + 1) = none →
      step s = .next { s with error := some (.programCounterOutOfBounds (s.pc + 1)), status := .faulted })

/-- R106: TAX. -/
def Obligations.TaxCopiesAToX : Prop :=
  ∀ s : State,
    encode .tax = [0xAA#8] ∧
    exec .tax s = .next { s with x := s.a, p := flagsAfter s.a s.p, pc := s.pc + 1 } ∧
    (s.status = .running → s.program.read s.pc = some 0xAA#8 →
      step s = .next { s with x := s.a, p := flagsAfter s.a s.p, pc := s.pc + 1 })

/-- R107: INX. -/
def Obligations.InxIncrementsXModulo256 : Prop :=
  ∀ s : State,
    encode .inx = [0xE8#8] ∧
    ∃ x' : Byte, x'.toNat = (s.x.toNat + 1) % 256 ∧
      exec .inx s = .next { s with x := x', p := flagsAfter x' s.p, pc := s.pc + 1 } ∧
      (s.status = .running → s.program.read s.pc = some 0xE8#8 →
        step s = .next { s with x := x', p := flagsAfter x' s.p, pc := s.pc + 1 })

/-- R115: BRK. It halts, writes no flag and no register, depends on no byte after its opcode, and is the only way to
Halted. -/
def Obligations.BrkHalts : Prop :=
  ∀ s : State,
    encode .brk = [0x00#8] ∧
    exec .brk s = .next { s with pc := s.pc + 1, status := .halted } ∧
    (s.status = .running → ∀ m : Memory, m.read s.pc = some 0x00#8 →
      step { s with program := m } = .next { s with program := m, pc := s.pc + 1, status := .halted }) ∧
    (∀ t, s.status = .running → step s = .next t → t.status = .halted → s.program.read s.pc = some 0x00#8)

/-- R105: the frame of LDA. -/
def Obligations.LdaFrame : Prop :=
  ∀ (imm8 : Byte) (s t : State), exec (.lda imm8) s = .next t →
    t.x = s.x ∧ t.status = s.status ∧ t.error = s.error ∧
    (∀ f, f ≠ .z → f ≠ .n → readFlag f t.p = readFlag f s.p) ∧ t.p.getLsbD 5 = s.p.getLsbD 5 ∧
    ∀ i, t.program.read i = s.program.read i

/-- R106, R107: the frame of TAX and INX, which write X, Z, N and PC. -/
def Obligations.TaxAndInxFrame : Prop :=
  ∀ (i : Instr) (s t : State), i = .tax ∨ i = .inx → exec i s = .next t →
    t.a = s.a ∧ t.status = s.status ∧ t.error = s.error ∧
    (∀ f, f ≠ .z → f ≠ .n → readFlag f t.p = readFlag f s.p) ∧ t.p.getLsbD 5 = s.p.getLsbD 5 ∧
    ∀ i, t.program.read i = s.program.read i

/-- R115: the frame of BRK, which writes the run status and PC. -/
def Obligations.BrkFrame : Prop :=
  ∀ s t : State, exec .brk s = .next t →
    t.a = s.a ∧ t.x = s.x ∧ t.p = s.p ∧ t.error = s.error ∧ ∀ i, t.program.read i = s.program.read i

/-! ### Errors -/

/-- R58, R120: 252 byte values are misses, and each, fetched as an opcode, raises UnimplementedOpcode with its value and
its index, whatever bytes follow it. -/
def Obligations.UnimplementedOpcodeIsRaised : Prop :=
  ((List.range 256).filter fun k => (decodeOpcode (BitVec.ofNat 8 k)).isNone).length = 252 ∧
  ∀ (s : State) (op : Byte), s.status = .running → s.program.read s.pc = some op →
    op ≠ 0x00#8 → op ≠ 0xA9#8 → op ≠ 0xAA#8 → op ≠ 0xE8#8 →
    ∃ t, step s = .next t ∧ t = { s with error := some (.unimplementedOpcode s.pc op), status := .faulted } ∧
      errorCode t.error = 1

/-- R121: an opcode fetch or an operand read at an index not below the program's length raises ProgramCounterOutOfBounds
with that index, code 2, and records no byte. -/
def Obligations.ProgramCounterOutOfBoundsIsRaised : Prop :=
  ∀ (w : Nat) (s : State), s.status = .running → s.program.wf w = true →
    (s.program.len ≤ s.pc →
      ∃ t e, step s = .next t ∧ t = { s with error := some e, status := .faulted } ∧
        e = .programCounterOutOfBounds s.pc ∧ errorCode t.error = 2 ∧ errorByte e = none) ∧
    (s.program.read s.pc = some 0xA9#8 → s.program.len ≤ s.pc + 1 →
      ∃ t e, step s = .next t ∧ t = { s with error := some e, status := .faulted } ∧
        e = .programCounterOutOfBounds (s.pc + 1) ∧ errorCode t.error = 2 ∧ errorByte e = none)

/-- R123, R122: a step raises at most one exception, the first in step order, and no other exception exists: it raises in
these three cases and in no other. -/
def Obligations.FirstFailureInStepOrderIsRaised : Prop :=
  ∀ (w : Nat) (s : State), s.status = .running → s.program.wf w = true →
    ∃ t, step s = .next t ∧
      (s.program.len ≤ s.pc →
        t.status = .faulted ∧ t.error = some (.programCounterOutOfBounds s.pc)) ∧
      (∀ op, s.program.read s.pc = some op → decodeOpcode op = none →
        t.status = .faulted ∧ t.error = some (.unimplementedOpcode s.pc op)) ∧
      (∀ op e k, s.program.read s.pc = some op → decodeOpcode op = some e →
        k < e.operandLen → s.program.len ≤ s.pc + 1 + k → (∀ j, j < k → s.pc + 1 + j < s.program.len) →
        t.status = .faulted ∧ t.error = some (.programCounterOutOfBounds (s.pc + 1 + k))) ∧
      (∀ op e, s.program.read s.pc = some op → decodeOpcode op = some e → s.pc + e.operandLen < s.program.len →
        t.status ≠ .faulted ∧ t.error = s.error)

/-- R124: what taking an exception writes, and the codes of the kinds on the error port. -/
def Obligations.FaultEntryWritesRecordAndStatus : Prop :=
  (∀ (s : State) (e : ErrorRecord), fetch s = .error e → s.status = .running →
    ∃ t, step s = .next t ∧ t.error = some e ∧ t.status = .faulted) ∧
  errorCode none = 0 ∧
  ∀ (position : Nat) (byte : Byte),
    errorCode (some (.unimplementedOpcode position byte)) = 1 ∧
    errorPosition (.unimplementedOpcode position byte) = position ∧
    errorByte (.unimplementedOpcode position byte) = some byte ∧
    errorCode (some (.programCounterOutOfBounds position)) = 2 ∧
    errorPosition (.programCounterOutOfBounds position) = position ∧
    errorByte (.programCounterOutOfBounds position) = none

/-- R125: faults are precise: A, X, P and PC are as at the start of the step, and the host receives the failure. -/
def Obligations.FaultsArePrecise : Prop :=
  ∀ s t : State, s.status = .running → step s = .next t → t.status = .faulted →
    t.a = s.a ∧ t.x = s.x ∧ t.p = s.p ∧ t.pc = s.pc ∧ t.program = s.program ∧
    t.error.isSome = true ∧ ∃ o, t.hostRead = some o ∧ o.error = t.error ∧ o.status = .faulted

/-! ### The status register and the ALU -/

/-- R70: the flag bits, by the table. -/
def Obligations.FlagBitsAreTheTable : Prop :=
  flagBit .c = 0 ∧ flagBit .z = 1 ∧ flagBit .i = 2 ∧ flagBit .d = 3 ∧ flagBit .b = 4 ∧ flagBit .v = 6 ∧ flagBit .n = 7 ∧
  (∀ f g, flagBit f = flagBit g → f = g) ∧ ∀ f, flagBit f ≠ 5

/-- R72, R73, R74: set, unset and toggle change the one bit of the flag; each has its corner case. -/
def Obligations.FlagWritesChangeOneBit : Prop :=
  ∀ (f : Flag) (p : Byte),
    (∀ k, k < 8 → (setFlag f p).getLsbD k = if k = flagBit f then true else p.getLsbD k) ∧
    (∀ k, k < 8 → (unsetFlag f p).getLsbD k = if k = flagBit f then false else p.getLsbD k) ∧
    (∀ k, k < 8 → (toggleFlag f p).getLsbD k = if k = flagBit f then !(p.getLsbD k) else p.getLsbD k) ∧
    (readFlag f p = true → setFlag f p = p) ∧ (readFlag f p = false → unsetFlag f p = p) ∧
    toggleFlag f (toggleFlag f p) = p

/-- R75, R76: read gives the flag's bit, raw the whole byte. -/
def Obligations.FlagReadsGiveTheStoredBits : Prop :=
  ∀ (f : Flag) (p : Byte), (readFlag f p).toNat = p.toNat / 2 ^ flagBit f % 2 ∧ rawFlags p = p

/-- R78: writes of two different flags do not depend on their order. -/
def Obligations.FlagWritesCommute : Prop :=
  ∀ (f g : Flag) (p : Byte), f ≠ g →
    setFlag f (setFlag g p) = setFlag g (setFlag f p) ∧ setFlag f (unsetFlag g p) = unsetFlag g (setFlag f p) ∧
    unsetFlag f (unsetFlag g p) = unsetFlag g (unsetFlag f p)

/-- R80: the zero/negative policy; z and n are never both 1. -/
def Obligations.ZeroNegativePolicy : Prop :=
  ∀ r : Byte, (znPolicy r).1 = decide (r.toNat = 0) ∧ (znPolicy r).2 = decide (128 ≤ r.toNat) ∧
    ((znPolicy r).1 && (znPolicy r).2) = false

/-- R81: ApplyZN writes Z and N, always both, from the result alone, and no other bit; it is the mask form. -/
def Obligations.ApplyZNWritesZAndNOnly : Prop :=
  ∀ r p : Byte,
    readFlag .z (applyZN r p) = decide (r = 0x00#8) ∧ readFlag .n (applyZN r p) = r.getLsbD 7 ∧
    (∀ f, f ≠ .z → f ≠ .n → readFlag f (applyZN r p) = readFlag f p) ∧
    (applyZN r p).getLsbD 5 = p.getLsbD 5 ∧ applyZN r p = flagsAfter r p

/-- R82: the two result operations, what uses them, and that the result goes to ApplyZN and nothing else in P is
written. -/
def Obligations.AluPassAndIncResults : Prop :=
  ∀ (v : Byte) (s : State),
    aluResult .pass v = v ∧ (aluResult .inc v).toNat = (v.toNat + 1) % 256 ∧
    (∀ op, (alu op v).result = aluResult op v ∧ (alu op v).zn = znPolicy (aluResult op v)) ∧
    (∀ t, exec (.lda v) s = .next t → t.a = aluResult .pass v ∧ t.p = applyZN (aluResult .pass v) s.p) ∧
    (∀ t, exec .tax s = .next t → t.x = aluResult .pass s.a ∧ t.p = applyZN (aluResult .pass s.a) s.p) ∧
    (∀ t, exec .inx s = .next t → t.x = aluResult .inc s.x ∧ t.p = applyZN (aluResult .inc s.x) s.p)

/-- R83: the carry policy and its subtract form; carry 1 in the subtract form says that no borrow occurs. It is
bound to no opcode: no instruction changes C. -/
def Obligations.CarryPolicyIsTheNinthBit : Prop :=
  ∀ (a b : Byte) (cin : Bool),
    (carryAdd a b cin).1.toNat = (a.toNat + b.toNat + cin.toNat) % 256 ∧
    (carryAdd a b cin).1.toNat + 256 * (carryAdd a b cin).2.toNat = a.toNat + b.toNat + cin.toNat ∧
    carrySub a b cin = carryAdd a (~~~ b) cin ∧
    ((carrySub a b cin).2 = true ↔ b.toNat + (!cin).toNat ≤ a.toNat) ∧
    ∀ (i : Instr) (s t : State), exec i s = .next t → readFlag .c t.p = readFlag .c s.p

/-- R84: the overflow policy: both inputs have one sign and the result the other. It is bound to no opcode: no
instruction changes V. -/
def Obligations.OverflowPolicyComparesSigns : Prop :=
  ∀ a b r : Byte, overflowAdd a b r = ((a.getLsbD 7 == b.getLsbD 7) && (r.getLsbD 7 != a.getLsbD 7)) ∧
    ∀ (i : Instr) (s t : State), exec i s = .next t → readFlag .v t.p = readFlag .v s.p

/-- What R84's bit means when r is the sum R83 gives: the exact signed sum does not fit in eight bits. -/
def Obligations.OverflowIsSignedOverflow : Prop :=
  ∀ (a b : Byte) (cin : Bool),
    overflowAdd a b (carryAdd a b cin).1 = true ↔
      (a.toInt + b.toInt + cin.toNat < -128 ∨ 127 < a.toInt + b.toInt + cin.toNat)

/-! ### Invariants and whole runs -/

/-- The invariant holds at reset, for every PC_WIDTH. -/
def Obligations.CoreInvHoldsAtReset : Prop :=
  ∀ w : Nat, Inv w State.reset

/-- Every step keeps the invariant: the program stays canonical and admitted, the program counter stays an index of it or
the past-the-end index, an error record stands exactly in Faulted, and it is accurate. -/
def Obligations.EveryStepKeepsCoreInv : Prop :=
  ∀ (w : Nat) (s t : State), Inv w s → step s = .next t → Inv w t

/-- Every host command that is not refused keeps the invariant, for every PC_WIDTH. -/
def Obligations.EveryCommandKeepsCoreInv : Prop :=
  ∀ (w : Nat) (c : Command) (s t : State), Inv w s → s.command c w = .next t → Inv w t

/-- R99: every run ends within at most L + 1 steps, all of them taken while Running; a completed step that is no BRK
strictly increases PC; a step at PC >= L faults; L <= 2^PC_WIDTH. -/
def Obligations.EveryRunEndsWithinItsLength : Prop :=
  ∀ (w : Nat) (s : State), Inv w s → s.status = .running →
    s.program.len ≤ 2 ^ w ∧
    (∀ t, step s = .next t → t.status = .running → s.pc < t.pc) ∧
    (s.program.len ≤ s.pc → ∃ t, step s = .next t ∧ t.status = .faulted) ∧
    ∃ n t, n ≤ s.program.len + 1 ∧ Host.Core.run core n s = .next t ∧ ended t ∧
      ∀ k u, k < n → Host.Core.run core k s = .next u → u.status = .running

/-- R97, R105 to R107, R115: launched on the bytes of any instructions without BRK, then a BRK, then any bytes, the core
halts after one step per instruction with A, X and P as the instructions' rules give them in order, no error, and PC past
the BRK. -/
def Obligations.StraightLineRunHaltsWithItsEffect : Prop :=
  ∀ (is : List Instr) (tail : List Byte) (s : State), s.status ≠ .running → (∀ i ∈ is, i ≠ .brk) →
    (encodeAll is ++ encode .brk ++ tail).length ≤ 256 →
    ∃ t u, s.command (.run (encodeAll is ++ encode .brk ++ tail)) = .next t ∧
      Host.Core.run core (is.length + 1) t = .next u ∧ u.status = .halted ∧ u.error = none ∧
      regsOf u = is.foldl regsAfter (regsOf s) ∧ u.pc = (encodeAll is).length + 1
end

