-- ==== Sys2Proof/Laws/Memory.lean ====
section
/-! SUPPORT. The laws of the program space. -/

namespace Sys2Proof.Laws

open Sys2Proof.Machine

theorem layFrom_length (k : Nat) (bs : List Byte) : (Memory.layFrom k bs).length = bs.length := by
  induction bs generalizing k with
  | nil => rfl
  | cons b bs ih => simp [Memory.layFrom, ih]

@[simp] theorem ofBytes_len (bs : List Byte) : (Memory.ofBytes bs).len = bs.length :=
  layFrom_length 0 bs

/-- A read of a laid-out byte sequence, at an offset from where it is laid. -/
theorem read_layFrom (k j : Nat) (bs : List Byte) : (Memory.layFrom k bs).read (k + j) = bs[j]? := by
  induction bs generalizing k j with
  | nil => rfl
  | cons b bs ih =>
    cases j with
    | zero => simp [Memory.layFrom, Memory.read]
    | succ j =>
      have := ih (k + 1) j
      rw [show k + 1 + j = k + (j + 1) by omega] at this
      simp [Memory.layFrom, Memory.read, this]

/-- MemRead of a supplied program: the byte at the index, or no value past its end. -/
@[simp] theorem read_ofBytes (bs : List Byte) (i : Nat) : (Memory.ofBytes bs).read i = bs[i]? := by
  simpa [Memory.ofBytes] using read_layFrom 0 i bs

theorem contiguousFrom_layFrom (k : Nat) (bs : List Byte) :
    Memory.contiguousFrom k (Memory.layFrom k bs) = true := by
  induction bs generalizing k with
  | nil => rfl
  | cons b bs ih => simp [Memory.layFrom, Memory.contiguousFrom, ih]

/-- The one operation that makes a memory gives the canonical form exactly for an admitted length. -/
theorem ofBytes_wf (bs : List Byte) (w : Nat) :
    (Memory.ofBytes bs).wf w = decide (bs.length ≤ Config.maxProgramLen w) := by
  simp [Memory.wf, Memory.ofBytes, contiguousFrom_layFrom, Memory.len, layFrom_length]

theorem layFrom_of_contiguousFrom (k : Nat) (m : Memory) (h : Memory.contiguousFrom k m = true) :
    m = Memory.layFrom k (m.map Prod.snd) := by
  induction m generalizing k with
  | nil => rfl
  | cons c m ih =>
    obtain ⟨a, b⟩ := c
    simp only [Memory.contiguousFrom, Bool.and_eq_true, beq_iff_eq] at h
    obtain ⟨rfl, h⟩ := h
    simp only [List.map_cons, Memory.layFrom]
    rw [← ih _ h]

/-- Every memory in canonical form is a byte sequence laid out from index 0. -/
theorem wf_iff_ofBytes (m : Memory) (w : Nat) :
    m.wf w = true ↔ ∃ bs : List Byte, m = Memory.ofBytes bs ∧ bs.length ≤ Config.maxProgramLen w := by
  constructor
  · intro h
    simp only [Memory.wf, Bool.and_eq_true, decide_eq_true_eq] at h
    exact ⟨m.map Prod.snd, layFrom_of_contiguousFrom 0 m h.1, by simpa [Memory.len] using h.2⟩
  · rintro ⟨bs, rfl, h⟩
    simpa [ofBytes_wf] using h

/-- In canonical form the addresses rise strictly. -/
theorem contiguousFrom_sorted (k : Nat) (m : Memory) (h : Memory.contiguousFrom k m = true) :
    (m.map Prod.fst).Pairwise (· < ·) ∧ ∀ a ∈ m.map Prod.fst, k ≤ a := by
  induction m generalizing k with
  | nil => simp
  | cons c m ih =>
    obtain ⟨a, b⟩ := c
    simp only [Memory.contiguousFrom, Bool.and_eq_true, beq_iff_eq] at h
    obtain ⟨rfl, h⟩ := h
    obtain ⟨hs, hb⟩ := ih _ h
    constructor
    · simp only [List.map_cons, List.pairwise_cons]
      exact ⟨fun a' ha' => by have := hb a' ha'; omega, hs⟩
    · intro a' ha'
      simp only [List.map_cons, List.mem_cons] at ha'
      rcases ha' with rfl | ha'
      · exact Nat.le_refl _
      · have := hb a' ha'
        omega

/-- In canonical form an index reads as a value exactly when it lies below the length. -/
theorem read_isSome_iff_of_wf {m : Memory} {w : Nat} (h : m.wf w = true) (i : Nat) :
    (m.read i).isSome = true ↔ i < m.len := by
  obtain ⟨bs, rfl, -⟩ := (wf_iff_ofBytes m w).1 h
  simp

theorem read_eq_none_iff_of_wf {m : Memory} {w : Nat} (h : m.wf w = true) (i : Nat) :
    m.read i = none ↔ m.len ≤ i := by
  obtain ⟨bs, rfl, -⟩ := (wf_iff_ofBytes m w).1 h
  simp

end Sys2Proof.Laws
end

