-- ==== Sys2Proof/Laws/State.lean ====
section
/-! SUPPORT. One lemma per field per update of State. -/

namespace Sys2Proof.Laws

open Sys2Proof.Machine

section
variable (s : State) (n : Nat) (out : AluOut) (e : ErrorRecord) (m : Memory) (va vx vp : Byte)

@[simp] theorem advance_a : (s.advance n).a = s.a := rfl
@[simp] theorem advance_x : (s.advance n).x = s.x := rfl
@[simp] theorem advance_p : (s.advance n).p = s.p := rfl
@[simp] theorem advance_pc : (s.advance n).pc = s.pc + n := rfl
@[simp] theorem advance_status : (s.advance n).status = s.status := rfl
@[simp] theorem advance_error : (s.advance n).error = s.error := rfl
@[simp] theorem advance_program : (s.advance n).program = s.program := rfl

@[simp] theorem commitA_a : (s.commitA out).a = out.result := rfl
@[simp] theorem commitA_x : (s.commitA out).x = s.x := rfl
@[simp] theorem commitA_p : (s.commitA out).p = writeZN out.zn s.p := rfl
@[simp] theorem commitA_pc : (s.commitA out).pc = s.pc := rfl
@[simp] theorem commitA_status : (s.commitA out).status = s.status := rfl
@[simp] theorem commitA_error : (s.commitA out).error = s.error := rfl
@[simp] theorem commitA_program : (s.commitA out).program = s.program := rfl

@[simp] theorem commitX_a : (s.commitX out).a = s.a := rfl
@[simp] theorem commitX_x : (s.commitX out).x = out.result := rfl
@[simp] theorem commitX_p : (s.commitX out).p = writeZN out.zn s.p := rfl
@[simp] theorem commitX_pc : (s.commitX out).pc = s.pc := rfl
@[simp] theorem commitX_status : (s.commitX out).status = s.status := rfl
@[simp] theorem commitX_error : (s.commitX out).error = s.error := rfl
@[simp] theorem commitX_program : (s.commitX out).program = s.program := rfl

@[simp] theorem halt_a : s.halt.a = s.a := rfl
@[simp] theorem halt_x : s.halt.x = s.x := rfl
@[simp] theorem halt_p : s.halt.p = s.p := rfl
@[simp] theorem halt_pc : s.halt.pc = s.pc := rfl
@[simp] theorem halt_status : s.halt.status = .halted := rfl
@[simp] theorem halt_error : s.halt.error = s.error := rfl
@[simp] theorem halt_program : s.halt.program = s.program := rfl

@[simp] theorem raise_a : (s.raise e).a = s.a := rfl
@[simp] theorem raise_x : (s.raise e).x = s.x := rfl
@[simp] theorem raise_p : (s.raise e).p = s.p := rfl
@[simp] theorem raise_pc : (s.raise e).pc = s.pc := rfl
@[simp] theorem raise_status : (s.raise e).status = .faulted := rfl
@[simp] theorem raise_error : (s.raise e).error = some e := rfl
@[simp] theorem raise_program : (s.raise e).program = s.program := rfl

@[simp] theorem startRun_a : (s.startRun m).a = s.a := rfl
@[simp] theorem startRun_x : (s.startRun m).x = s.x := rfl
@[simp] theorem startRun_p : (s.startRun m).p = s.p := rfl
@[simp] theorem startRun_pc : (s.startRun m).pc = 0 := rfl
@[simp] theorem startRun_status : (s.startRun m).status = .running := rfl
@[simp] theorem startRun_error : (s.startRun m).error = none := rfl
@[simp] theorem startRun_program : (s.startRun m).program = m := rfl

@[simp] theorem cmdPreload_a : (s.cmdPreload va vx vp).a = va := rfl
@[simp] theorem cmdPreload_x : (s.cmdPreload va vx vp).x = vx := rfl
@[simp] theorem cmdPreload_p : (s.cmdPreload va vx vp).p = vp := rfl
@[simp] theorem cmdPreload_pc : (s.cmdPreload va vx vp).pc = s.pc := rfl
@[simp] theorem cmdPreload_status : (s.cmdPreload va vx vp).status = s.status := rfl
@[simp] theorem cmdPreload_error : (s.cmdPreload va vx vp).error = s.error := rfl
@[simp] theorem cmdPreload_program : (s.cmdPreload va vx vp).program = s.program := rfl

@[simp] theorem cmdReset_a : s.cmdReset.a = 0x00#8 := rfl
@[simp] theorem cmdReset_x : s.cmdReset.x = 0x00#8 := rfl
@[simp] theorem cmdReset_p : s.cmdReset.p = 0x00#8 := rfl
@[simp] theorem cmdReset_pc : s.cmdReset.pc = 0 := rfl
@[simp] theorem cmdReset_status : s.cmdReset.status = .idle := rfl
@[simp] theorem cmdReset_error : s.cmdReset.error = none := rfl
@[simp] theorem cmdReset_program : s.cmdReset.program = s.program := rfl

@[simp] theorem outputs_a : s.outputs.a = s.a := rfl
@[simp] theorem outputs_x : s.outputs.x = s.x := rfl
@[simp] theorem outputs_pRaw : s.outputs.pRaw = s.p := rfl
@[simp] theorem outputs_status : s.outputs.status = s.status := rfl
@[simp] theorem outputs_error : s.outputs.error = s.error := rfl
end

end Sys2Proof.Laws
end

