-- ==== Sys2Proof/Laws/Commands.lean ====
section
/-! SUPPORT. What a host command can do, said once. -/

namespace Sys2Proof.Laws

open Sys2Proof.Machine

theorem command_running {s : State} (h : s.status = .running) (c : Command) (w : Nat) :
    s.command c w = .next s := by
  simp [State.command, h]

/-- A command from a state that is not Running, command by command. -/
theorem command_stopped {s : State} (h : s.status ≠ .running) (c : Command) (w : Nat) :
    s.command c w = match c with
      | .reset => .next s.cmdReset
      | .preload a x p => .next (s.cmdPreload a x p)
      | .run bytes =>
        if programAdmitted bytes w then .next (s.startRun (Memory.ofBytes bytes)) else .refused .programTooLong := by
  unfold State.command
  cases hs : s.status <;> first | exact absurd hs h | (cases c <;> rfl)

/-- All that a command which answers a next state can do. -/
theorem command_cases {s t : State} {c : Command} {w : Nat} (h : s.command c w = .next t) :
    (s.status = .running ∧ t = s) ∨
    (s.status ≠ .running ∧
      (c = .reset ∧ t = s.cmdReset ∨
       (∃ a x p, c = .preload a x p ∧ t = s.cmdPreload a x p) ∨
       (∃ bytes, c = .run bytes ∧ bytes.length ≤ Config.maxProgramLen w ∧ t = s.startRun (Memory.ofBytes bytes)))) := by
  by_cases hr : s.status = .running
  · rw [command_running hr] at h
    cases h
    exact .inl ⟨hr, rfl⟩
  · rw [command_stopped hr] at h
    refine .inr ⟨hr, ?_⟩
    cases c with
    | reset => cases h; exact .inl ⟨rfl, rfl⟩
    | preload a x p => cases h; exact .inr (.inl ⟨a, x, p, rfl, rfl⟩)
    | run bytes =>
      by_cases ha : programAdmitted bytes w = true
      · simp only [ha, if_true] at h
        cases h
        exact .inr (.inr ⟨bytes, rfl, by simpa [programAdmitted] using ha, rfl⟩)
      · simp [ha] at h

end Sys2Proof.Laws
end

