-- ==== Sys2Proof/Laws/Decode.lean ====
section
/-! SUPPORT. What the decoder and the reading of one instruction can answer. -/

namespace Sys2Proof.Laws

/-- Every row of the table is well-formed. -/
theorem opcodeRows_wellFormed : ∀ r ∈ opcodeRows, r.2.wellFormed = true := by decide

/-- No opcode has two rows. -/
theorem opcodeRows_no_overlap : (opcodeRows.map Prod.fst).Pairwise (· ≠ ·) := by decide

/-- The four hits, or a miss. -/
theorem decodeOpcode_cases (op : Byte) :
    (op = 0x00#8 ∧ decodeOpcode op = some ⟨.BRK, .implied, 0, .halt⟩) ∨
    (op = 0xA9#8 ∧ decodeOpcode op = some ⟨.LDA, .immediate, 1, .loadAImm⟩) ∨
    (op = 0xAA#8 ∧ decodeOpcode op = some ⟨.TAX, .implied, 0, .transferAX⟩) ∨
    (op = 0xE8#8 ∧ decodeOpcode op = some ⟨.INX, .implied, 0, .incX⟩) ∨
    (op ≠ 0x00#8 ∧ op ≠ 0xA9#8 ∧ op ≠ 0xAA#8 ∧ op ≠ 0xE8#8 ∧ decodeOpcode op = none) := by
  by_cases h0 : op = 0x00#8
  · exact .inl ⟨h0, h0 ▸ rfl⟩
  by_cases h1 : op = 0xA9#8
  · exact .inr (.inl ⟨h1, h1 ▸ rfl⟩)
  by_cases h2 : op = 0xAA#8
  · exact .inr (.inr (.inl ⟨h2, h2 ▸ rfl⟩))
  by_cases h3 : op = 0xE8#8
  · exact .inr (.inr (.inr (.inl ⟨h3, h3 ▸ rfl⟩)))
  refine .inr (.inr (.inr (.inr ⟨h0, h1, h2, h3, ?_⟩)))
  simp [decodeOpcode, opcodeRows, List.lookup, beq_false_of_ne h0, beq_false_of_ne h1, beq_false_of_ne h2,
    beq_false_of_ne h3]

/-- An operand list of the length a hit announces makes an instruction: the unreachable case of `decodeAt`. -/
theorem instrOf_table (op : Byte) (e : TableEntry) (h : decodeOpcode op = some e) (bs : List Byte)
    (hl : bs.length = e.operandLen) : (instrOf e.effect bs).isSome = true := by
  rcases decodeOpcode_cases op with ⟨rfl, h'⟩ | ⟨rfl, h'⟩ | ⟨rfl, h'⟩ | ⟨rfl, h'⟩ | ⟨-, -, -, -, h'⟩ <;>
    rw [h'] at h <;> cases h
  · cases bs with
    | nil => rfl
    | cons _ _ => simp at hl
  · match bs, hl with
    | [_], _ => rfl
  · cases bs with
    | nil => rfl
    | cons _ _ => simp at hl
  · cases bs with
    | nil => rfl
    | cons _ _ => simp at hl

/-- All that reading one instruction can answer, in the order in which it fails (R91 to R94, R123). -/
theorem decodeAt_cases (read : Nat → Option Byte) (i : Nat) :
    (read i = none ∧ decodeAt read i = .error (.noOpcode i)) ∨
    (read i = some 0x00#8 ∧ decodeAt read i = .ok .brk) ∨
    (read i = some 0xA9#8 ∧ read (i + 1) = none ∧ decodeAt read i = .error (.noOperand (i + 1))) ∨
    (∃ v, read i = some 0xA9#8 ∧ read (i + 1) = some v ∧ decodeAt read i = .ok (.lda v)) ∨
    (read i = some 0xAA#8 ∧ decodeAt read i = .ok .tax) ∨
    (read i = some 0xE8#8 ∧ decodeAt read i = .ok .inx) ∨
    (∃ op, read i = some op ∧ decodeOpcode op = none ∧ decodeAt read i = .error (.unimplementedOpcode i op)) := by
  cases hr : read i with
  | none => exact .inl ⟨rfl, by simp [decodeAt, hr]⟩
  | some op =>
    refine .inr ?_
    rcases decodeOpcode_cases op with ⟨rfl, h⟩ | ⟨rfl, h⟩ | ⟨rfl, h⟩ | ⟨rfl, h⟩ | ⟨-, -, -, -, h⟩
    · exact .inl ⟨rfl, by simp [decodeAt, hr, h, readOperands, instrOf]⟩
    · cases hv : read (i + 1) with
      | none => exact .inr (.inl ⟨rfl, rfl, by simp [decodeAt, hr, h, readOperands, hv]⟩)
      | some v => exact .inr (.inr (.inl ⟨v, rfl, rfl, by simp [decodeAt, hr, h, readOperands, hv, instrOf]⟩))
    · exact .inr (.inr (.inr (.inl ⟨rfl, by simp [decodeAt, hr, h, readOperands, instrOf]⟩)))
    · exact .inr (.inr (.inr (.inr (.inl ⟨rfl, by simp [decodeAt, hr, h, readOperands, instrOf]⟩))))
    · exact .inr (.inr (.inr (.inr (.inr ⟨op, rfl, h, by simp [decodeAt, hr, h]⟩))))

end Sys2Proof.Laws
end

