-- ==== Sys2Proof/Laws/Flags.lean ====
section
/-! SUPPORT. The status byte bit by bit. -/

namespace Sys2Proof.Laws

open Sys2Proof.Machine

theorem flagMask_bit : ∀ (f : Flag) (k : Fin 8), (flagMask f).getLsbD k = decide (k.val = flagBit f) := by
  intro f
  cases f <;> decide

/-- The bits of P after the writes of Z and N. -/
theorem writeZN_bit (z n : Bool) (p : Byte) (k : Fin 8) :
    (writeZN (z, n) p).getLsbD k = if k.val = 7 then n else if k.val = 1 then z else p.getLsbD k := by
  cases z <;> cases n <;>
    simp only [writeZN, setFlag, unsetFlag, BitVec.getLsbD_or, BitVec.getLsbD_and, BitVec.getLsbD_not, flagMask_bit,
      flagBit, if_true, Bool.false_eq_true, if_false] <;>
    fin_cases k <;> simp

theorem alu_result (op : AluOp) (v : Byte) : (alu op v).result = aluResult op v := rfl

theorem alu_zn (op : AluOp) (v : Byte) : (alu op v).zn = znPolicy (aluResult op v) := rfl

@[simp] theorem aluResult_pass (v : Byte) : aluResult .pass v = v := rfl

/-- Incrementing modulo 256 is addition of 1 on bytes. -/
@[simp] theorem aluResult_inc (v : Byte) : aluResult .inc v = v + 1#8 := by
  apply BitVec.eq_of_toNat_eq
  simp [aluResult]

end Sys2Proof.Laws
end

