-- ==== Sys2Proof/Laws/PerInstr.lean ====
section
/-! SUPPORT. What holds of each instruction as syntax: its bytes agree with its row of the table. -/

namespace Sys2Proof.Laws.TableRow

/-- The instruction's opcode byte has an entry with its effect and its format, the entry's operand length is the number
of its operand bytes, and its effect and operands make it again (R55, R56, R60). -/
def Statement (i : Instr) : Prop :=
  ∃ e, decodeOpcode i.opcode = some e ∧ e.effect = i.effect ∧ e.format = i.effect.format ∧
    e.operandLen = i.operands.length ∧ instrOf e.effect i.operands = some i

theorem brk : Statement .brk := ⟨_, rfl, rfl, rfl, rfl, rfl⟩

theorem lda (imm8 : Byte) : Statement (.lda imm8) := ⟨_, rfl, rfl, rfl, rfl, rfl⟩

theorem tax : Statement .tax := ⟨_, rfl, rfl, rfl, rfl, rfl⟩

theorem inx : Statement .inx := ⟨_, rfl, rfl, rfl, rfl, rfl⟩

end Sys2Proof.Laws.TableRow
end

