-- ==== Sys2Proof/Laws/Step.lean ====
section
/-! SUPPORT. What fetching, one instruction and one step can do, said once. -/

namespace Sys2Proof.Laws

open Sys2Proof.Machine

/-- All that `fetch` can answer. -/
theorem fetch_cases (s : State) :
    (s.program.read s.pc = none ∧ fetch s = .error (.programCounterOutOfBounds s.pc)) ∨
    (s.program.read s.pc = some 0x00#8 ∧ fetch s = .ok .brk) ∨
    (s.program.read s.pc = some 0xA9#8 ∧ s.program.read (s.pc + 1) = none ∧
      fetch s = .error (.programCounterOutOfBounds (s.pc + 1))) ∨
    (∃ v, s.program.read s.pc = some 0xA9#8 ∧ s.program.read (s.pc + 1) = some v ∧ fetch s = .ok (.lda v)) ∨
    (s.program.read s.pc = some 0xAA#8 ∧ fetch s = .ok .tax) ∨
    (s.program.read s.pc = some 0xE8#8 ∧ fetch s = .ok .inx) ∨
    (∃ op, s.program.read s.pc = some op ∧ decodeOpcode op = none ∧
      fetch s = .error (.unimplementedOpcode s.pc op)) := by
  unfold fetch
  rcases decodeAt_cases (fun i => s.program.read i) s.pc with
    ⟨h, hd⟩ | ⟨h, hd⟩ | ⟨h, h', hd⟩ | ⟨v, h, h', hd⟩ | ⟨h, hd⟩ | ⟨h, hd⟩ | ⟨op, h, h', hd⟩ <;>
    rw [hd]
  · exact .inl ⟨h, rfl⟩
  · exact .inr (.inl ⟨h, rfl⟩)
  · exact .inr (.inr (.inl ⟨h, h', rfl⟩))
  · exact .inr (.inr (.inr (.inl ⟨v, h, h', rfl⟩)))
  · exact .inr (.inr (.inr (.inr (.inl ⟨h, rfl⟩))))
  · exact .inr (.inr (.inr (.inr (.inr (.inl ⟨h, rfl⟩)))))
  · exact .inr (.inr (.inr (.inr (.inr (.inr ⟨op, h, h', rfl⟩)))))

/-- Every instruction answers a next state. -/
theorem exec_completes (i : Instr) (s : State) : ∃ t, exec i s = .next t := by
  cases i <;> exact ⟨_, rfl⟩

theorem step_running {s : State} (h : s.status = .running) :
    step s = match fetch s with
      | .ok i => exec i s
      | .error e => .next (s.raise e) := by
  cases hf : fetch s <;> simp [step, cycle, h, hf]

theorem step_not_running {s : State} (h : s.status ≠ .running) : step s = .next s := by
  unfold step cycle
  split <;> first | rfl | contradiction

/-- All that a step taken while Running can do. -/
theorem step_cases {s t : State} (hr : s.status = .running) (h : step s = .next t) :
    (∃ i, fetch s = .ok i ∧ exec i s = .next t) ∨ (∃ e, fetch s = .error e ∧ t = s.raise e) := by
  rw [step_running hr] at h
  cases hf : fetch s with
  | ok i => rw [hf] at h; exact .inl ⟨i, rfl, h⟩
  | error e => rw [hf] at h; cases h; exact .inr ⟨e, rfl, rfl⟩

/-- Every step answers a next state: no fault and no refusal. -/
theorem step_total (s : State) : ∃ t, step s = .next t := by
  by_cases hr : s.status = .running
  · rw [step_running hr]
    cases fetch s with
    | ok i => exact exec_completes i s
    | error e => exact ⟨_, rfl⟩
  · exact ⟨s, step_not_running hr⟩

/-- A placed instruction is the one the next step runs. -/
theorem step_withFetchWord (s : State) {nbits w : Nat} {i : Instr} (h : decodeTableWord nbits w = some i) :
    step (s.withFetchWord nbits w) = exec i (s.withFetchWord nbits w) := by
  have hd : decodeAt (fun i => (tableWordBytes nbits w)[i]?) 0 = .ok i := by
    unfold decodeTableWord decode at h
    cases hc : decodeAt (fun i => (tableWordBytes nbits w)[i]?) 0 with
    | error e => simp [hc] at h
    | ok j => simp only [hc, Option.some.injEq] at h; rw [h]
  have hf : fetch (s.withFetchWord nbits w) = .ok i := by
    simp only [fetch, State.withFetchWord, State.launchWord, startRun_program, startRun_pc, read_ofBytes, hd]
  have hr : (s.withFetchWord nbits w).status = .running := rfl
  rw [step_running hr, hf]

end Sys2Proof.Laws
end

