-- ==== Sys2Proof/Tests/Slice0.lean ====
section
/-! SUPPORT. The model's own tests: expected results are the spec's (95_test_vectors.md unless a comment says otherwise),
and a witness for the hypotheses of each statement. -/

namespace Sys2Proof.Tests

open Sys2Proof.Machine Sys2Proof.Safety

/-- A running core with the given registers, at index `pc` of a supplied program. -/
def running (bytes : List Byte) (pc : Nat) (a x p : Byte) : State :=
  { a := a, x := x, p := p, pc := pc, status := .running, error := none, program := Memory.ofBytes bytes }

/-- What a step leaves, as far as the test asks; false where it answers no next state. -/
def after (o : Host.Outcome State Fault Refusal) (check : State → Bool) : Bool :=
  match o with
  | .next t => check t
  | .fault _ => false
  | .refused _ => false

/-- A, X, P and PC. -/
def view (s : State) : Byte × Byte × Byte × Nat := (s.a, s.x, s.p, s.pc)

/-! ### Well-formedness: an ill-formed term for each check -/

/-- R55: LDA has one operand byte. -/
theorem test_entry_with_wrong_operandLen_refused :
    (TableEntry.mk .LDA .immediate 0 .loadAImm).wellFormed = false := by decide

/-- R55: TAX is implied. -/
theorem test_entry_with_wrong_format_refused :
    (TableEntry.mk .TAX .immediate 1 .transferAX).wellFormed = false := by decide

theorem test_operands_missing_refused :
    (TableEntry.mk .LDA .immediate 1 .loadAImm).operandsFit [] = false := by decide

theorem test_operand_to_implied_refused :
    (TableEntry.mk .BRK .implied 0 .halt).operandsFit [0x00#8] = false := by decide

/-- No term of `Instr` is ill-formed: the operand is a field of its constructor and a byte by its type. -/
theorem test_every_instr_wellFormed (i : Instr) : i.wellFormed = true := by cases i <;> rfl

/-- R41: 257 bytes are too many, 256 are not. -/
theorem test_program_of_257_not_admitted : programAdmitted (List.replicate 257 0xE8#8) = false := by
  simp only [programAdmitted, List.length_replicate]; decide

theorem test_program_of_256_admitted : programAdmitted (List.replicate 256 0xE8#8) = true := by
  simp only [programAdmitted, List.length_replicate]; decide

theorem test_empty_program_admitted : programAdmitted [] = true := by decide

theorem test_memory_with_gap_refused : Memory.wf [(0, 0x00#8), (2, 0x00#8)] = false := by decide

theorem test_memory_out_of_order_refused : Memory.wf [(1, 0x00#8), (0, 0x00#8)] = false := by decide

theorem test_memory_too_long_refused : Memory.wf [(0, 0x00#8), (1, 0x00#8), (2, 0x00#8)] 1 = false := by decide

theorem test_reset_memory_wf : State.reset.program.wf = true := by decide

/-! ### Decoding: words written out from R55 and R56 -/

theorem test_decode_brk : decode [0b00000000#8] = .ok (.brk, []) := by decide

theorem test_decode_lda : decode [0b10101001#8, 0b10000001#8] = .ok (.lda 0x81#8, []) := by decide

theorem test_decode_tax : decode [0b10101010#8] = .ok (.tax, []) := by decide

theorem test_decode_inx : decode [0b11101000#8] = .ok (.inx, []) := by decide

/-- 95 §2.8: misses, three of them instructions of the real 6502. -/
theorem test_misses :
    [0x01#8, 0x05#8, 0xA8#8, 0xAB#8, 0xE7#8, 0xE9#8, 0xFF#8, 0xEA#8, 0xA2#8, 0x4C#8].map decodeOpcode =
      List.replicate 10 none := by decide

/-- The table's word of LDA: the opcode in bits 7..0, imm8 in bits 15..8. -/
theorem test_table_word_lda : decodeTableWord 16 0xC0A9 = some (.lda 0xC0#8) := by decide

theorem test_table_word_inx : decodeTableWord 8 0xE8 = some .inx := by decide

/-- A placed instruction is the next step's, from reset: X = 0 becomes 1. -/
theorem test_withFetchWord_runs :
    after (step (State.reset.withFetchWord 8 0xE8)) (fun t => view t == (0x00#8, 0x01#8, 0x00#8, 1)) = true := by decide

/-! ### Instructions, at most two tests each -/

/-- 95 §2.4: old Z cleared, N set, bit 5 and the other flags kept. -/
theorem test_lda_flags :
    after (step (running [0xA9#8, 0x80#8, 0x00#8] 0 0x55#8 0x33#8 0x7F#8))
      (fun t => view t == (0x80#8, 0x33#8, 0xFD#8, 2)) = true := by decide

/-- 95 §2.4: LDA cut short. -/
theorem test_lda_without_operand :
    after (step (running [0xA9#8] 0 0x12#8 0x00#8 0x00#8))
      (fun t => view t == (0x12#8, 0x00#8, 0x00#8, 0) && t.status == .faulted &&
        t.error == some (.programCounterOutOfBounds 1)) = true := by decide

/-- 95 §2.5. -/
theorem test_tax_zero :
    after (step (running [0xAA#8, 0x00#8] 0 0x00#8 0x80#8 0x80#8))
      (fun t => view t == (0x00#8, 0x00#8, 0x02#8, 1)) = true := by decide

/-- 95 §2.5. -/
theorem test_tax_negative :
    after (step (running [0xAA#8, 0x00#8] 0 0x80#8 0x00#8 0x1D#8))
      (fun t => view t == (0x80#8, 0x80#8, 0x9D#8, 1)) = true := by decide

/-- 95 §2.6: the wrap keeps C. -/
theorem test_inx_wraps :
    after (step (running [0xE8#8, 0x00#8] 0 0x00#8 0xFF#8 0x01#8))
      (fun t => view t == (0x00#8, 0x00#8, 0x03#8, 1)) = true := by decide

/-- 95 §2.6: the sign change does not set V. -/
theorem test_inx_sign :
    after (step (running [0xE8#8, 0x00#8] 0 0x00#8 0x7F#8 0x00#8))
      (fun t => view t == (0x00#8, 0x80#8, 0x80#8, 1)) = true := by decide

/-- 95 §2.7: BRK writes no register and no flag, and the byte after it raises nothing. -/
theorem test_brk_halts :
    after (step (running [0x00#8, 0x05#8] 0 0x12#8 0x34#8 0x00#8))
      (fun t => view t == (0x12#8, 0x34#8, 0x00#8, 1) && t.status == .halted && t.error == none) = true := by decide

/-- R115: a BRK at the last index halts. -/
theorem test_brk_at_last_index :
    after (step (running [0xE8#8, 0x00#8] 1 0x00#8 0x01#8 0xFF#8))
      (fun t => view t == (0x00#8, 0x01#8, 0xFF#8, 2) && t.status == .halted) = true := by decide

/-! ### Errors, flags, ALU, commands -/

/-- 95 §1 S5. -/
theorem test_unimplemented_opcode :
    after (step (running [0x05#8, 0x00#8] 0 0x00#8 0x00#8 0x00#8))
      (fun t => view t == (0x00#8, 0x00#8, 0x00#8, 0) && t.status == .faulted &&
        t.error == some (.unimplementedOpcode 0 0x05#8)) = true := by decide

/-- 95 §2.9: the empty program. -/
theorem test_empty_program_faults :
    after (step (running [] 0 0x00#8 0x00#8 0x00#8))
      (fun t => t.status == .faulted && t.error == some (.programCounterOutOfBounds 0)) = true := by decide

/-- 95 §2.1. -/
theorem test_flag_operations :
    setFlag .n 0x00#8 = 0x80#8 ∧ setFlag .d 0x20#8 = 0x28#8 ∧ unsetFlag .z 0xFF#8 = 0xFD#8 ∧ unsetFlag .n 0xFF#8 = 0x7F#8 ∧
    toggleFlag .c 0x01#8 = 0x00#8 ∧ toggleFlag .b 0x00#8 = 0x10#8 ∧ rawFlags 0xA5#8 = 0xA5#8 := by decide

/-- 95 §2.1: the reads of 0x5D. -/
theorem test_flag_reads :
    [Flag.v, .b, .d, .i, .c, .z, .n].map (fun f => readFlag f 0x5D#8) =
      [true, true, true, true, true, false, false] := by decide

/-- 95 §2.2. -/
theorem test_applyZN :
    applyZN 0x00#8 0x80#8 = 0x02#8 ∧ applyZN 0x7F#8 0xFF#8 = 0x7D#8 ∧ applyZN 0x80#8 0x4D#8 = 0xCD#8 ∧
    applyZN 0xFF#8 0x7F#8 = 0xFD#8 ∧ applyZN 0x00#8 0x4F#8 = 0x4F#8 := by decide

/-- 95 §2.3. -/
theorem test_inc :
    [0x00#8, 0x7E#8, 0x7F#8, 0xC0#8, 0xFE#8, 0xFF#8].map (aluResult .inc) =
      [0x01#8, 0x7F#8, 0x80#8, 0xC1#8, 0xFF#8, 0x00#8] := by decide

/-- The examples of R83 and R84. -/
theorem test_carry_and_overflow :
    carryAdd 0xFF#8 0x01#8 false = (0x00#8, true) ∧ overflowAdd 0x50#8 0x50#8 0xA0#8 = true := by decide

/-- 95 §2.12: preload, then reset. -/
theorem test_preload_then_reset :
    after (State.reset.command (.preload 0x0A#8 0x0B#8 0xFF#8)) (fun l =>
      view l == (0x0A#8, 0x0B#8, 0xFF#8, 0) && after (l.command .reset) (fun t => t == State.reset)) = true := by decide

/-- 95 §2.12: a second run from Faulted clears the error and starts at index 0. -/
theorem test_run_after_fault :
    after (({ State.reset with status := .faulted, error := some (.unimplementedOpcode 0 0x05#8) } : State).command
      (.run [0xA9#8, 0x01#8, 0x00#8])) (fun t => t.status == .running && t.error == none && t.pc == 0) = true := by decide

/-! ### Witnesses for the statements' hypotheses -/

/-- ResetForgetsThePreviousState, ResetLeavesConstructionState, StoppedCoreStaysAsItIs: two different stopped states. -/
theorem witness_two_stopped_states :
    State.reset.status ≠ .running ∧ ({ State.reset with status := .halted, x := 0x07#8 } : State).status ≠ .running := by
  decide

/-- PreloadWritesOnlyAXP, HostReadsOutputsOutsideRunsOnly: both clauses. -/
theorem witness_running_and_not :
    (running [] 0 0x00#8 0x00#8 0x00#8).status = .running ∧ State.reset.status ≠ .running := by decide

/-- RunStartsAtIndexZero, BootSequenceReachesARun: the longest program, and one byte with a PC_WIDTH of 0. -/
theorem witness_longest_program :
    State.reset.status ≠ .running ∧ (List.replicate 256 0xE8#8).length ≤ 2 ^ 8 ∧
    (List.replicate 256 0xE8#8).length ≤ 256 ∧ ([0x00#8] : List Byte).length ≤ 2 ^ 0 := by
  simp only [List.length_replicate]; decide

/-- ProgramsAreAdmittedUpToTheirLimit: each clause at its boundary. -/
theorem witness_admission_boundary :
    State.reset.status ≠ .running ∧ 2 ^ 8 < (List.replicate 257 0xE8#8).length ∧
    (List.replicate 256 0xE8#8).length ≤ 2 ^ 8 := by
  simp only [List.length_replicate]; decide

/-- MemReadIsTheSuppliedByte: the last index, and the first one past it. -/
theorem witness_read_boundary :
    1 < ([0xE8#8, 0x00#8] : List Byte).length ∧ ([0xE8#8, 0x00#8] : List Byte).length ≤ 2 := by decide

/-- NoStepWritesTheProgram, StepsWriteNoFlagButZAndN: a step that answers a next state, and a flag that is neither Z nor
N. -/
theorem witness_step_next :
    step (running [0xE8#8] 0 0x00#8 0xFF#8 0x01#8) = .next (running [0xE8#8] 1 0x00#8 0x00#8 0x03#8) ∧
    Flag.c ≠ .z ∧ Flag.c ≠ .n := ⟨rfl, by decide, by decide⟩

/-- StepDependsOnItsOwnBytesOnly: two programs that differ only past the span of a BRK, and past the span of an LDA. -/
theorem witness_same_span :
    (∀ k, k < readSpan (Memory.ofBytes [0x00#8, 0x05#8]) 0 →
      (Memory.ofBytes [0x00#8]).read (0 + k) = (Memory.ofBytes [0x00#8, 0x05#8]).read (0 + k)) ∧
    (∀ k, k < readSpan (Memory.ofBytes [0xA9#8, 0x44#8]) 0 →
      (Memory.ofBytes [0xA9#8, 0x44#8, 0xFF#8]).read (0 + k) = (Memory.ofBytes [0xA9#8, 0x44#8]).read (0 + k)) := by
  decide

/-- DecodeInvertsEncode. -/
theorem witness_wellFormed : (Instr.lda 0xC0#8).wellFormed = true := by decide

/-- EncodeInvertsDecode. -/
theorem witness_decodes : decode [0xA9#8, 0xC0#8, 0xAA#8] = .ok (.lda 0xC0#8, [0xAA#8]) := by decide

/-- EncodedInstructionRunsWhereItStands. -/
theorem witness_instruction_behind_others :
    (running [0xA9#8, 0x05#8, 0xAA#8, 0x00#8] 2 0x05#8 0x00#8 0x00#8).status = .running ∧
    (running [0xA9#8, 0x05#8, 0xAA#8, 0x00#8] 2 0x05#8 0x00#8 0x00#8).program =
      Memory.ofBytes (encodeAll [.lda 0x05#8] ++ encode .tax ++ [0x00#8]) ∧
    (running [0xA9#8, 0x05#8, 0xAA#8, 0x00#8] 2 0x05#8 0x00#8 0x00#8).pc = (encodeAll [.lda 0x05#8]).length := by decide

/-- StepRunsTheDecodedInstruction. -/
theorem witness_bytes_at_pc_decode :
    (running [0xE8#8, 0xA9#8, 0x05#8] 1 0x00#8 0x00#8 0x00#8).status = .running ∧
    decode (bytesFrom (running [0xE8#8, 0xA9#8, 0x05#8] 1 0x00#8 0x00#8 0x00#8).program 2 1) = .ok (.lda 0x05#8, []) := by
  decide

/-- StepRaisesTheDecodeFailure: each clause. -/
theorem witness_bytes_at_pc_fail :
    decode (bytesFrom (Memory.ofBytes [0xE8#8]) 2 1) = .error (.noOpcode 0) ∧
    decode (bytesFrom (Memory.ofBytes [0xE8#8, 0x05#8]) 2 1) = .error (.unimplementedOpcode 0 0x05#8) ∧
    decode (bytesFrom (Memory.ofBytes [0xE8#8, 0xA9#8]) 2 1) = .error (.noOperand 1) ∧
    (running [0xE8#8, 0xA9#8] 1 0x00#8 0x00#8 0x00#8).status = .running := by decide

/-- CompletedStepIsSequential: a BRK, and an instruction that is none. -/
theorem witness_completed_steps :
    step (running [0xE8#8] 0 0x00#8 0xFF#8 0x01#8) = .next (running [0xE8#8] 1 0x00#8 0x00#8 0x03#8) ∧
    (running [0xE8#8] 1 0x00#8 0x00#8 0x03#8).status ≠ .faulted ∧
    step (running [0x00#8] 0 0x00#8 0x00#8 0x00#8) =
      .next { running [0x00#8] 1 0x00#8 0x00#8 0x00#8 with status := .halted } := ⟨rfl, by decide, rfl⟩

/-- The two states of the next witness: they agree on A, X, P, PC and the program and differ in the error record. -/
def otherError (s : State) : State := { s with error := some (.programCounterOutOfBounds 9) }

/-- StepIsAFunctionOfRegistersAndProgram: one pair of agreeing, different states completes its step and one raises. -/
theorem witness_agreeing_states :
    ∀ s ∈ [running [0xE8#8] 0 0x00#8 0x00#8 0x00#8, running [0xE8#8] 1 0x00#8 0x00#8 0x00#8],
      s ≠ otherError s ∧ s.status = .running ∧ (otherError s).status = .running ∧ s.a = (otherError s).a ∧
      s.x = (otherError s).x ∧ s.p = (otherError s).p ∧ s.pc = (otherError s).pc ∧
      s.program = (otherError s).program ∧ after (step s) (fun t => (t.status == .faulted) == (s.pc == 1)) = true := by
  decide

/-- LdaLoadsItsImmediate: the step that runs it, and the one at the last index. -/
theorem witness_lda_steps :
    (running [0xA9#8, 0x44#8] 0 0x00#8 0x00#8 0x00#8).status = .running ∧
    (running [0xA9#8, 0x44#8] 0 0x00#8 0x00#8 0x00#8).program.read 0 = some 0xA9#8 ∧
    (running [0xA9#8, 0x44#8] 0 0x00#8 0x00#8 0x00#8).program.read 1 = some 0x44#8 ∧
    (running [0xE8#8, 0xA9#8] 1 0x00#8 0x00#8 0x00#8).program.read 1 = some 0xA9#8 ∧
    (running [0xE8#8, 0xA9#8] 1 0x00#8 0x00#8 0x00#8).program.read 2 = none := by decide

/-- TaxCopiesAToX, InxIncrementsXModulo256, BrkHalts. -/
theorem witness_one_byte_steps :
    (running [0xAA#8, 0xE8#8, 0x00#8] 0 0x80#8 0xFF#8 0x00#8).status = .running ∧
    (running [0xAA#8, 0xE8#8, 0x00#8] 0 0x80#8 0xFF#8 0x00#8).program.read 0 = some 0xAA#8 ∧
    (running [0xAA#8, 0xE8#8, 0x00#8] 1 0x80#8 0xFF#8 0x00#8).program.read 1 = some 0xE8#8 ∧
    (running [0xAA#8, 0xE8#8, 0x00#8] 2 0x80#8 0xFF#8 0x00#8).program.read 2 = some 0x00#8 := by decide

/-- BrkHalts: a step that reaches Halted. -/
theorem witness_halted_next :
    step (running [0x00#8] 0 0x12#8 0x34#8 0xFF#8) =
      .next { running [0x00#8] 1 0x12#8 0x34#8 0xFF#8 with status := .halted } ∧
    ({ running [0x00#8] 1 0x12#8 0x34#8 0xFF#8 with status := .halted } : State).status = .halted := ⟨rfl, rfl⟩

/-- LdaFrame, TaxAndInxFrame, BrkFrame, AluPassAndIncResults: each instruction answers a next state. -/
theorem witness_exec_next :
    (∃ t, exec (.lda 0x80#8) State.reset = .next t) ∧ (∃ t, exec .tax State.reset = .next t) ∧
    (∃ t, exec .inx State.reset = .next t) ∧ (∃ t, exec .brk State.reset = .next t) :=
  ⟨⟨_, rfl⟩, ⟨_, rfl⟩, ⟨_, rfl⟩, ⟨_, rfl⟩⟩

/-- UnimplementedOpcodeIsRaised: the misses beside the four hits. -/
theorem witness_misses_at_pc :
    ∀ op ∈ [0x01#8, 0xA8#8, 0xAB#8, 0xE7#8, 0xE9#8, 0xFF#8],
      (running [op] 0 0x00#8 0x00#8 0x00#8).status = .running ∧
      (running [op] 0 0x00#8 0x00#8 0x00#8).program.read 0 = some op ∧
      op ≠ 0x00#8 ∧ op ≠ 0xA9#8 ∧ op ≠ 0xAA#8 ∧ op ≠ 0xE8#8 := by decide

/-- ProgramCounterOutOfBoundsIsRaised, FirstFailureInStepOrderIsRaised: the fetch and the operand read at the first index
outside the program. -/
theorem witness_out_of_bounds :
    ((running [0xE8#8] 1 0x00#8 0x00#8 0x00#8).status = .running ∧
      (running [0xE8#8] 1 0x00#8 0x00#8 0x00#8).program.wf = true ∧
      (running [0xE8#8] 1 0x00#8 0x00#8 0x00#8).program.len ≤ 1) ∧
    ((running [0xA9#8] 0 0x00#8 0x00#8 0x00#8).status = .running ∧
      (running [0xA9#8] 0 0x00#8 0x00#8 0x00#8).program.wf = true ∧
      (running [0xA9#8] 0 0x00#8 0x00#8 0x00#8).program.read 0 = some 0xA9#8 ∧
      decodeOpcode 0xA9#8 = some ⟨.LDA, .immediate, 1, .loadAImm⟩ ∧
      (running [0xA9#8] 0 0x00#8 0x00#8 0x00#8).program.len ≤ 0 + 1 + 0) := by decide

/-- FirstFailureInStepOrderIsRaised: a miss as the last byte, and an LDA whose operand is the last byte. -/
theorem witness_failure_order :
    ((running [0xFF#8] 0 0x00#8 0x00#8 0x00#8).status = .running ∧
      (running [0xFF#8] 0 0x00#8 0x00#8 0x00#8).program.wf = true ∧
      (running [0xFF#8] 0 0x00#8 0x00#8 0x00#8).program.read 0 = some 0xFF#8 ∧ decodeOpcode 0xFF#8 = none) ∧
    ((running [0xA9#8, 0x05#8] 0 0x00#8 0x00#8 0x00#8).status = .running ∧
      (running [0xA9#8, 0x05#8] 0 0x00#8 0x00#8 0x00#8).program.wf = true ∧
      (running [0xA9#8, 0x05#8] 0 0x00#8 0x00#8 0x00#8).program.read 0 = some 0xA9#8 ∧
      0 + 1 < (running [0xA9#8, 0x05#8] 0 0x00#8 0x00#8 0x00#8).program.len) := by decide

/-- FaultEntryWritesRecordAndStatus. -/
theorem witness_fetch_error :
    fetch (running [0x05#8] 0 0x00#8 0x00#8 0x00#8) = .error (.unimplementedOpcode 0 0x05#8) ∧
    (running [0x05#8] 0 0x00#8 0x00#8 0x00#8).status = .running := by decide

/-- FaultsArePrecise. -/
theorem witness_faulted_next :
    step (running [0x05#8] 0 0x07#8 0x08#8 0x00#8) =
      .next { running [0x05#8] 0 0x07#8 0x08#8 0x00#8 with
        status := .faulted, error := some (.unimplementedOpcode 0 0x05#8) } := rfl

/-- FlagWritesChangeOneBit, FlagWritesCommute, ApplyZNWritesZAndNOnly. -/
theorem witness_flags :
    readFlag .n 0x80#8 = true ∧ readFlag .n 0x7F#8 = false ∧ Flag.z ≠ .n ∧ Flag.v ≠ .z ∧ Flag.v ≠ .n := by decide

/-- A running core without an error, at an index of a canonical program or at its end, meets the invariant. -/
theorem inv_of_running {w : Nat} {s : State} (hw : s.program.wf w = true) (hp : s.pc ≤ s.program.len)
    (hs : s.status = .running) (he : s.error = none) : Inv w s :=
  { program_wf := hw
    pc_range := hp
    error_iff_faulted := by simp [hs, he]
    error_accurate := by simp [he] }

/-- EveryStepKeepsCoreInv, EveryRunEndsWithinItsLength: in the middle of a program, and at its end. -/
theorem witness_inv_running :
    Inv 8 (running [0xE8#8, 0x00#8] 0 0x00#8 0xFF#8 0x00#8) ∧ Inv 8 (running [0xE8#8, 0x00#8] 2 0x00#8 0xFF#8 0x00#8) ∧
    step (running [0xE8#8, 0x00#8] 0 0x00#8 0xFF#8 0x00#8) = .next (running [0xE8#8, 0x00#8] 1 0x00#8 0x00#8 0x02#8) ∧
    (running [0xE8#8, 0x00#8] 2 0x00#8 0xFF#8 0x00#8).program.len ≤ 2 :=
  ⟨inv_of_running (by decide) (by decide) rfl rfl, inv_of_running (by decide) (by decide) rfl rfl, rfl, by decide⟩

/-- EveryCommandKeepsCoreInv: a state that meets the invariant, and a command that answers a next state from it. -/
theorem witness_inv_command :
    Inv 8 (running [0xE8#8] 0 0x00#8 0x00#8 0x00#8) ∧
    (running [0xE8#8] 0 0x00#8 0x00#8 0x00#8).command .reset 8 = .next (running [0xE8#8] 0 0x00#8 0x00#8 0x00#8) ∧
    State.reset.command (.run [0x00#8]) 8 = .next (State.reset.startRun (Memory.ofBytes [0x00#8])) :=
  ⟨inv_of_running (by decide) (by decide) rfl rfl, rfl, rfl⟩

/-- EveryCommandKeepsCoreInv: the construction state meets the invariant, a faulted state does, and both take commands. -/
theorem witness_inv_stopped :
    Inv 8 { running [0x05#8] 0 0x00#8 0x00#8 0x00#8 with
      status := .faulted, error := some (.unimplementedOpcode 0 0x05#8) } :=
  { program_wf := by decide
    pc_range := by decide
    error_iff_faulted := by decide
    error_accurate := by
      intro e he
      cases he
      exact ⟨rfl, by decide, by decide⟩ }

/-- StraightLineRunHaltsWithItsEffect: the program of 95 §1 S6 without its BRK. -/
theorem witness_straight_line :
    State.reset.status ≠ .running ∧ (∀ i ∈ [Instr.lda 0xC0#8, .tax, .inx], i ≠ .brk) ∧
    (encodeAll [.lda 0xC0#8, .tax, .inx] ++ encode .brk ++ []).length ≤ 256 := by decide

end Sys2Proof.Tests
end

section
/-! What the host reads (R7, R101, R150): one lemma for each answer of `hostRead`, and its independence of PC. -/

namespace Sys2Proof.Proofs

open Sys2Proof.Machine

theorem hostRead_running {s : State} (h : s.status = .running) : s.hostRead = none := by
  simp [State.hostRead, h]

theorem hostRead_stopped {s : State} (h : s.status ≠ .running) : s.hostRead = some s.outputs := by
  unfold State.hostRead
  split
  case h_1 hs => exact absurd hs h
  all_goals rfl

/-- Neither the test for a run nor the outputs look at PC. -/
@[simp] theorem hostRead_with_pc (s : State) (k : Nat) : ({ s with pc := k } : State).hostRead = s.hostRead := rfl

@[simp] theorem outputs_flag (s : State) (f : Flag) : s.outputs.flag f = readFlag f s.p := rfl

/-- Settles O7: a read during a run gives none, and any other gives the output ports, which leave PC out. -/
theorem hostReadsOutputsOutsideRunsOnly : Obligations.HostReadsOutputsOutsideRunsOnly := by
  intro s
  refine ⟨hostRead_running, fun h => ⟨s.outputs, hostRead_stopped h, ?_⟩, hostRead_with_pc s⟩
  simp

end Sys2Proof.Proofs
end

section
/-! What one instruction writes and keeps (R96, R98): one lemma per field of the state, for every instruction. -/

namespace Sys2Proof.Proofs

open Sys2Proof.Machine Sys2Proof.Laws

section
variable {i : Instr} {s t : State} (h : exec i s = .next t)
include h

theorem exec_pc : t.pc = s.pc + i.length := by
  cases i <;> cases h <;> rfl

theorem exec_program : t.program = s.program := by
  cases i <;> cases h <;> rfl

theorem exec_error : t.error = s.error := by
  cases i <;> cases h <;> rfl

/-- Only BRK writes the run status (R115). -/
theorem exec_status : t.status = if i = .brk then .halted else s.status := by
  cases i <;> cases h <;> rfl

/-- BRK keeps P; every other instruction writes it by the zero/negative policy alone (R81, R115). -/
theorem exec_p : t.p = s.p ∨ ∃ r, t.p = applyZN r s.p := by
  cases i with
  | brk => cases h; exact .inl rfl
  | lda imm8 => cases h; exact .inr ⟨imm8, rfl⟩
  | tax => cases h; exact .inr ⟨s.a, rfl⟩
  | inx => cases h; exact .inr ⟨aluResult .inc s.x, rfl⟩

end

end Sys2Proof.Proofs
end

section
/-! The flags and the steps (R24, R25): a step reads none of P, and of P it writes Z and N alone. -/

namespace Sys2Proof.Proofs

open Sys2Proof.Machine Sys2Proof.Laws

/-- What an instruction does to everything but P does not depend on P. -/
theorem exec_with_p {i : Instr} {s t : State} (h : exec i s = .next t) (q : Byte) :
    ∃ q', exec i { s with p := q } = .next { t with p := q' } := by
  cases i <;> cases h <;> exact ⟨_, rfl⟩

/-- Reading an instruction looks at PC and the program only. -/
@[simp] theorem fetch_with_p (s : State) (q : Byte) : fetch { s with p := q } = fetch s := rfl

theorem step_with_p {s t : State} (h : step s = .next t) (q : Byte) :
    ∃ q', step { s with p := q } = .next { t with p := q' } := by
  by_cases hr : s.status = .running
  · rw [step_running (s := { s with p := q }) hr, fetch_with_p]
    rcases step_cases hr h with ⟨i, hf, hi⟩ | ⟨e, hf, rfl⟩
    · rw [hf]
      exact exec_with_p hi q
    · rw [hf]
      exact ⟨q, rfl⟩
  · rw [step_not_running hr] at h
    cases h
    exact ⟨q, step_not_running hr⟩

/-- Settles O21: a step from another status byte ends in the same state up to its status byte. -/
theorem noStepReadsAFlag : Obligations.NoStepReadsAFlag := by
  intro s q
  obtain ⟨t, ht⟩ := step_total s
  obtain ⟨q', hu⟩ := step_with_p ht q
  exact ⟨t, _, ht, hu, rfl, rfl, rfl, rfl, rfl, rfl⟩

theorem step_p {s t : State} (h : step s = .next t) : t.p = s.p ∨ ∃ r, t.p = applyZN r s.p := by
  by_cases hr : s.status = .running
  · rcases step_cases hr h with ⟨i, -, hi⟩ | ⟨e, -, rfl⟩
    · exact exec_p hi
    · exact .inl rfl
  · rw [step_not_running hr] at h
    cases h
    exact .inl rfl

theorem flagBit_lt (f : Flag) : flagBit f < 8 := by
  cases f <;> decide

theorem flagBit_eq_one_iff (f : Flag) : flagBit f = 1 ↔ f = .z := by
  cases f <;> decide

theorem flagBit_eq_seven_iff (f : Flag) : flagBit f = 7 ↔ f = .n := by
  cases f <;> decide

/-- The zero/negative policy writes bits 1 and 7 alone (R81). -/
theorem applyZN_bit_of_ne (r p : Byte) {k : Fin 8} (hz : k.val ≠ 1) (hn : k.val ≠ 7) :
    (applyZN r p).getLsbD k = p.getLsbD k := by
  rw [applyZN, ← Prod.mk.eta (p := znPolicy r), writeZN_bit, if_neg hn, if_neg hz]

theorem readFlag_applyZN_of_ne (r p : Byte) {f : Flag} (hz : f ≠ .z) (hn : f ≠ .n) :
    readFlag f (applyZN r p) = readFlag f p :=
  applyZN_bit_of_ne r p (k := ⟨flagBit f, flagBit_lt f⟩)
    (mt (flagBit_eq_one_iff f).1 hz) (mt (flagBit_eq_seven_iff f).1 hn)

/-- Settles O22: a step keeps P or writes it by the zero/negative policy, which keeps every bit but 1 and 7. -/
theorem stepsWriteNoFlagButZAndN : Obligations.StepsWriteNoFlagButZAndN := by
  intro s t h
  rcases step_p h with hp | ⟨r, hp⟩ <;> rw [hp]
  · exact ⟨fun _ _ _ => rfl, rfl⟩
  · exact ⟨fun _ hz hn => readFlag_applyZN_of_ne r s.p hz hn,
      applyZN_bit_of_ne r s.p (k := 5) (by decide) (by decide)⟩

end Sys2Proof.Proofs
end

section
/-! The invariant of the core (R26 to R28, R40, R41): every step and every command keeps it. -/

namespace Sys2Proof.Proofs

open Sys2Proof.Machine Sys2Proof.Safety Sys2Proof.Laws

/-- The last byte of an instruction that is read stands in the program. -/
theorem fetch_ok_last_byte {s : State} {i : Instr} (h : fetch s = .ok i) :
    (s.program.read (s.pc + i.operands.length)).isSome = true := by
  rcases fetch_cases s with
    ⟨-, hf⟩ | ⟨hop, hf⟩ | ⟨-, -, hf⟩ | ⟨v, -, hv, hf⟩ | ⟨hop, hf⟩ | ⟨hop, hf⟩ | ⟨op, -, -, hf⟩ <;>
    rw [hf] at h <;> cases h
  · simp [Instr.operands, hop]
  · simp [Instr.operands, hv]
  · simp [Instr.operands, hop]
  · simp [Instr.operands, hop]

/-- PC after an instruction is an index of the program or the past-the-end index (R28). -/
theorem fetch_ok_length_le {w : Nat} {s : State} {i : Instr} (hw : s.program.wf w = true) (h : fetch s = .ok i) :
    s.pc + i.length ≤ s.program.len := by
  have hlast := (read_isSome_iff_of_wf hw _).1 (fetch_ok_last_byte h)
  unfold Instr.length
  omega

/-- The error a step raises names the miss at PC, or the first index past the program: an opcode fetch fails at PC, which
is not beyond that index, and an operand read fails one past an opcode that was there. -/
theorem fetch_error_accurate {w : Nat} {s : State} {e : ErrorRecord} (hw : s.program.wf w = true)
    (hpc : s.pc ≤ s.program.len) (h : fetch s = .error e) : recordAccurate s e := by
  rcases fetch_cases s with
    ⟨hop, hf⟩ | ⟨-, hf⟩ | ⟨hop, hv, hf⟩ | ⟨v, -, -, hf⟩ | ⟨-, hf⟩ | ⟨-, hf⟩ | ⟨op, hop, hmiss, hf⟩ <;>
    rw [hf] at h <;> cases h
  · exact Nat.le_antisymm hpc ((read_eq_none_iff_of_wf hw _).1 hop)
  · have hlt : s.pc < s.program.len := (read_isSome_iff_of_wf hw _).1 (by simp [hop])
    exact Nat.le_antisymm hlt ((read_eq_none_iff_of_wf hw _).1 hv)
  · exact ⟨rfl, hop, hmiss⟩

/-- Outside Faulted the invariant asks for no error record. -/
theorem inv_of_not_faulted {w : Nat} {s : State} (hw : s.program.wf w = true) (hpc : s.pc ≤ s.program.len)
    (hs : s.status ≠ .faulted) (he : s.error = none) : Inv w s :=
  { program_wf := hw
    pc_range := hpc
    error_iff_faulted := by simp [hs, he]
    error_accurate := by simp [he] }

section
variable {w : Nat} {s : State} (hi : Inv w s)
include hi

theorem inv_error_of_running (hr : s.status = .running) : s.error = none := by
  have hiff := hi.error_iff_faulted
  simpa [hr] using hiff

/-- An instruction read at PC ends inside the program and leaves no error record. -/
theorem inv_exec {t : State} {i : Instr} (hr : s.status = .running) (hf : fetch s = .ok i)
    (h : exec i s = .next t) : Inv w t := by
  have hprog := exec_program h
  refine inv_of_not_faulted ?_ ?_ ?_ ?_
  · exact hprog ▸ hi.program_wf
  · rw [exec_pc h, hprog]
    exact fetch_ok_length_le hi.program_wf hf
  · rw [exec_status h, hr]
    split <;> decide
  · rw [exec_error h]
    exact inv_error_of_running hi hr

/-- Taking an exception keeps PC and the program, of which the record speaks (R124, R125). -/
theorem inv_raise {e : ErrorRecord} (he : recordAccurate s e) : Inv w (s.raise e) :=
  { program_wf := hi.program_wf
    pc_range := hi.pc_range
    error_iff_faulted := by simp
    error_accurate := by
      intro e' he'
      cases he'
      exact he }

theorem inv_cmdReset : Inv w s.cmdReset :=
  inv_of_not_faulted hi.program_wf (Nat.zero_le _) (by simp) rfl

/-- The invariant does not speak of A, X and P. -/
theorem inv_cmdPreload (a x p : Byte) : Inv w (s.cmdPreload a x p) :=
  { program_wf := hi.program_wf
    pc_range := hi.pc_range
    error_iff_faulted := hi.error_iff_faulted
    error_accurate := hi.error_accurate }

end

/-- A run on an admitted program starts in the invariant, whatever the state before (R90). -/
theorem inv_startRun {w : Nat} {bytes : List Byte} (s : State) (hb : bytes.length ≤ Config.maxProgramLen w) :
    Inv w (s.startRun (Memory.ofBytes bytes)) :=
  inv_of_not_faulted ((wf_iff_ofBytes _ w).2 ⟨bytes, rfl, hb⟩) (Nat.zero_le _) (by simp) rfl

/-- Settles O46: a step runs an instruction that it read, raises the error of the failed reading, or does nothing. -/
theorem everyStepKeepsCoreInv : Obligations.EveryStepKeepsCoreInv := by
  intro w s t hi h
  by_cases hr : s.status = .running
  · rcases step_cases hr h with ⟨i, hf, hx⟩ | ⟨e, hf, rfl⟩
    · exact inv_exec hi hr hf hx
    · exact inv_raise hi (fetch_error_accurate hi.program_wf hi.pc_range hf)
  · rw [step_not_running hr] at h
    cases h
    exact hi

/-- Settles O47, command by command; during a run a command does nothing. -/
theorem everyCommandKeepsCoreInv : Obligations.EveryCommandKeepsCoreInv := by
  intro w c s t hi h
  rcases command_cases h with ⟨-, rfl⟩ | ⟨-, ⟨-, rfl⟩ | ⟨a, x, p, -, rfl⟩ | ⟨bytes, -, hb, rfl⟩⟩
  · exact hi
  · exact inv_cmdReset hi
  · exact inv_cmdPreload hi a x p
  · exact inv_startRun s hb

end Sys2Proof.Proofs
end

section
/-! The host preload (R29). -/

namespace Sys2Proof.Proofs

open Sys2Proof.Machine Sys2Proof.Laws

/-- Settles O3: outside a run `cmd_preload` is `State.cmdPreload`, field by field, and during a run it does nothing. -/
theorem preloadWritesOnlyAXP : Obligations.PreloadWritesOnlyAXP := by
  intro s a x p
  refine ⟨fun hs => ⟨s.cmdPreload a x p, command_stopped hs _ _, ?_⟩, fun hr => command_running hr _ _⟩
  simp

end Sys2Proof.Proofs
end

section
/-! The program space and a step (R40, R48, R51, R60): a step reads its opcode and the operand bytes the opcode's entry
announces, and writes no byte. -/

namespace Sys2Proof.Proofs

open Sys2Proof.Machine Sys2Proof.Safety Sys2Proof.Laws

/-- The operand reads look at the announced indices only. -/
theorem readOperands_congr {read read' : Nat → Option Byte} (n i : Nat)
    (h : ∀ k, k < n → read' (i + k) = read (i + k)) : readOperands read' n i = readOperands read n i := by
  induction n generalizing i with
  | zero => rfl
  | succ n ih =>
    have hhead : read' i = read i := h 0 n.succ_pos
    have htail : readOperands read' n (i + 1) = readOperands read n (i + 1) :=
      ih (i + 1) fun k hk => by simpa [Nat.add_assoc, Nat.add_comm 1] using h (k + 1) (Nat.succ_lt_succ hk)
    simp only [readOperands, hhead, htail]

/-- Reading an instruction looks at its opcode, and on a hit at the operand bytes of the entry. -/
theorem decodeAt_congr {read read' : Nat → Option Byte} {i : Nat} (hop : read' i = read i)
    (hargs : ∀ op e, read i = some op → decodeOpcode op = some e →
      ∀ k, k < e.operandLen → read' (i + 1 + k) = read (i + 1 + k)) :
    decodeAt read' i = decodeAt read i := by
  cases hr : read i with
  | none => simp only [decodeAt, hop, hr]
  | some op =>
    cases hd : decodeOpcode op with
    | none => simp only [decodeAt, hop, hr, hd]
    | some e => simp only [decodeAt, hop, hr, hd, readOperands_congr _ _ (hargs op e hr hd)]

theorem readSpan_pos (m : Memory) (i : Nat) : 0 < readSpan m i := by
  unfold readSpan
  split
  · exact Nat.one_pos
  · split <;> omega

theorem readSpan_of_hit {m : Memory} {i : Nat} {op : Byte} {e : TableEntry} (hr : m.read i = some op)
    (hd : decodeOpcode op = some e) : readSpan m i = 1 + e.operandLen := by
  simp only [readSpan, hr, hd]

/-- Two programs that read the same over a step's span give it the same instruction, or the same error. -/
theorem fetch_with_program {s : State} {m : Memory}
    (h : ∀ k, k < readSpan s.program s.pc → m.read (s.pc + k) = s.program.read (s.pc + k)) :
    fetch { s with program := m } = fetch s := by
  have hdecode : decodeAt (fun i => m.read i) s.pc = decodeAt (fun i => s.program.read i) s.pc := by
    refine decodeAt_congr (h 0 (readSpan_pos _ _)) fun op e hr hd k hk => ?_
    have hspan := readSpan_of_hit hr hd
    simpa [Nat.add_assoc] using h (1 + k) (by omega)
  simp only [fetch, hdecode]

/-- An instruction's effect neither reads nor writes the program. -/
theorem exec_with_program {i : Instr} {s t : State} (h : exec i s = .next t) (m : Memory) :
    exec i { s with program := m } = .next { t with program := m } := by
  cases i <;> cases h <;> rfl

theorem step_with_program {s t : State} {m : Memory} (h : step s = .next t)
    (hspan : ∀ k, k < readSpan s.program s.pc → m.read (s.pc + k) = s.program.read (s.pc + k)) :
    step { s with program := m } = .next { t with program := m } := by
  by_cases hr : s.status = .running
  · rw [step_running (s := { s with program := m }) hr, fetch_with_program hspan]
    rcases step_cases hr h with ⟨i, hf, hi⟩ | ⟨e, hf, rfl⟩
    · rw [hf]
      exact exec_with_program hi m
    · rw [hf]
      rfl
  · rw [step_not_running hr] at h
    cases h
    exact step_not_running hr

/-- Settles O10: both programs give the same instruction or error, whose effect does not depend on the program. -/
theorem stepDependsOnItsOwnBytesOnly : Obligations.StepDependsOnItsOwnBytesOnly := by
  intro s m hspan
  obtain ⟨t, ht⟩ := step_total s
  exact ⟨t, ht, step_with_program ht hspan⟩

theorem step_program {s t : State} (h : step s = .next t) : t.program = s.program := by
  by_cases hr : s.status = .running
  · rcases step_cases hr h with ⟨i, -, hi⟩ | ⟨e, -, rfl⟩
    · exact exec_program hi
    · exact raise_program s e
  · rw [step_not_running hr] at h
    cases h
    rfl

/-- Settles O9: neither an instruction nor an exception writes the program, so no read of it changes. -/
theorem noStepWritesTheProgram : Obligations.NoStepWritesTheProgram := by
  intro s t h
  have hprog := step_program h
  exact ⟨hprog, fun i => by rw [hprog]⟩

/-- Settles O8: a read of a supplied program is the list's own lookup. -/
theorem memReadIsTheSuppliedByte : Obligations.MemReadIsTheSuppliedByte := by
  intro bytes i
  rw [read_ofBytes]
  exact ⟨List.getElem?_eq_getElem, List.getElem?_eq_none⟩

end Sys2Proof.Proofs
end

section
/-! Admission of a program (R41): `cmd_run` outside a run, and the first step on the empty program. -/

namespace Sys2Proof.Proofs

open Sys2Proof.Machine Sys2Proof.Laws

section
variable {s : State} {w : Nat} {bytes : List Byte} (hs : s.status ≠ .running)
include hs

theorem command_run_of_length_le (hb : bytes.length ≤ 2 ^ w) :
    s.command (.run bytes) w = .next (s.startRun (Memory.ofBytes bytes)) := by
  simp [command_stopped hs, programAdmitted, hb]

theorem command_run_of_lt_length (hb : 2 ^ w < bytes.length) :
    s.command (.run bytes) w = .refused .programTooLong := by
  simp [command_stopped hs, programAdmitted, Nat.not_le.2 hb]

end

/-- A fetch at an index without a byte raises ProgramCounterOutOfBounds there (R91, R121). -/
theorem step_of_read_none {s : State} (hr : s.status = .running) (hop : s.program.read s.pc = none) :
    step s = .next (s.raise (.programCounterOutOfBounds s.pc)) := by
  have hf : fetch s = .error (.programCounterOutOfBounds s.pc) := by
    simp only [fetch, decodeAt, hop, errorOf]
  rw [step_running hr, hf]

/-- Settles O5: admission compares the length with 2^PC_WIDTH, and the empty program has no byte at index 0. -/
theorem programsAreAdmittedUpToTheirLimit : Obligations.ProgramsAreAdmittedUpToTheirLimit := by
  intro w s bytes hs
  refine ⟨command_run_of_lt_length hs, fun hb => ⟨_, command_run_of_length_le hs hb, rfl⟩,
    _, command_run_of_length_le hs (Nat.zero_le _), rfl, ?_⟩
  exact step_of_read_none rfl (read_ofBytes [] 0)

end Sys2Proof.Proofs
end

section
/-! The bytes of an instruction (R55, R56, R60, R96): read where they stand, they give the instruction back, and a step
there runs it. -/

namespace Sys2Proof.Proofs

open Sys2Proof.Machine Sys2Proof.Safety Sys2Proof.Laws

theorem tableRow_statement : ∀ i : Instr, TableRow.Statement i
  | .brk => TableRow.brk
  | .lda imm8 => TableRow.lda imm8
  | .tax => TableRow.tax
  | .inx => TableRow.inx

/-- As many operand reads as a byte list is long give the list, where its bytes stand. -/
theorem readOperands_of_reads {read : Nat → Option Byte} {bs : List Byte} {i : Nat}
    (h : ∀ k, k < bs.length → read (i + k) = bs[k]?) : readOperands read bs.length i = .ok bs := by
  induction bs generalizing i with
  | nil => rfl
  | cons b bs ih =>
    have hhead : read i = some b := h 0 (Nat.zero_lt_succ _)
    have htail : readOperands read bs.length (i + 1) = .ok bs :=
      ih fun k hk => by simpa [Nat.add_assoc, Nat.add_comm 1] using h (k + 1) (Nat.succ_lt_succ hk)
    simp only [List.length_cons, readOperands, hhead, htail]

/-- Where the bytes of an instruction stand, the instruction is read: its opcode's entry announces its operand bytes,
which make it again. -/
theorem decodeAt_of_reads {read : Nat → Option Byte} {start : Nat} {i : Instr}
    (h : ∀ k, k < (encode i).length → read (start + k) = (encode i)[k]?) : decodeAt read start = .ok i := by
  obtain ⟨e, hentry, -, -, hlen, hinstr⟩ := tableRow_statement i
  have hop : read start = some i.opcode := h 0 (Nat.zero_lt_succ _)
  have hargs : readOperands read e.operandLen (start + 1) = .ok i.operands := by
    rw [hlen]
    refine readOperands_of_reads fun k hk => ?_
    simpa [encode, Nat.add_assoc, Nat.add_comm 1] using h (k + 1) (Nat.succ_lt_succ hk)
  simp only [decodeAt, hop, hentry, hargs, hinstr]

/-- The bytes in the middle of a supplied program are read behind those before them. -/
theorem read_ofBytes_middle (before mid tail : List Byte) {k : Nat} (hk : k < mid.length) :
    (Memory.ofBytes (before ++ mid ++ tail)).read (before.length + k) = mid[k]? := by
  rw [read_ofBytes, List.append_assoc, List.getElem?_append_right (Nat.le_add_right _ _), Nat.add_sub_cancel_left,
    List.getElem?_append_left hk]

theorem fetch_of_encode_at_pc {s : State} {before tail : List Byte} {i : Instr}
    (hprog : s.program = Memory.ofBytes (before ++ encode i ++ tail)) (hpc : s.pc = before.length) :
    fetch s = .ok i := by
  have hdecode : decodeAt (fun j => s.program.read j) s.pc = .ok i :=
    decodeAt_of_reads fun k hk => by simpa only [hprog, hpc] using read_ofBytes_middle before (encode i) tail hk
  simp only [fetch, hdecode]

/-- Settles O15: the step reads exactly the instruction whose bytes stand at PC; what stands before and behind them does
not matter. -/
theorem encodedInstructionRunsWhereItStands : Obligations.EncodedInstructionRunsWhereItStands := by
  intro before i tail s hr hprog hpc
  rw [step_running hr, fetch_of_encode_at_pc hprog hpc]

end Sys2Proof.Proofs
end

section
/-! The decode table (R55, R58, R120): its four hits, and the exception that every other opcode byte raises. -/

namespace Sys2Proof.Proofs

open Sys2Proof.Machine Sys2Proof.Laws

theorem decodeOpcode_eq_none_iff (op : Byte) :
    decodeOpcode op = none ↔ op ≠ 0x00#8 ∧ op ≠ 0xA9#8 ∧ op ≠ 0xAA#8 ∧ op ≠ 0xE8#8 := by
  rcases decodeOpcode_cases op with
    ⟨rfl, h⟩ | ⟨rfl, h⟩ | ⟨rfl, h⟩ | ⟨rfl, h⟩ | ⟨h0, h1, h2, h3, h⟩
  · simp [h]
  · simp [h]
  · simp [h]
  · simp [h]
  · exact iff_of_true h ⟨h0, h1, h2, h3⟩

/-- A fetched byte without an entry raises UnimplementedOpcode with its index and its value (R58, R93, R120). -/
theorem step_of_miss {s : State} {op : Byte} (hr : s.status = .running) (hop : s.program.read s.pc = some op)
    (hmiss : decodeOpcode op = none) : step s = .next (s.raise (.unimplementedOpcode s.pc op)) := by
  have hf : fetch s = .error (.unimplementedOpcode s.pc op) := by
    simp only [fetch, decodeAt, hop, hmiss, errorOf]
  rw [step_running hr, hf]

/-- The table has 256 - 4 misses (R58). -/
theorem length_misses : ((List.range 256).filter fun k => (decodeOpcode (BitVec.ofNat 8 k)).isNone).length = 252 := by
  decide +kernel

/-- Settles O30: the misses are counted, and a byte other than the four opcodes is one. -/
theorem unimplementedOpcodeIsRaised : Obligations.UnimplementedOpcodeIsRaised := by
  refine ⟨length_misses, fun s op hr hop h0 h1 h2 h3 => ⟨_, step_of_miss hr hop ?_, rfl, rfl⟩⟩
  exact (decodeOpcode_eq_none_iff op).2 ⟨h0, h1, h2, h3⟩

/-- Settles O11, hit by hit. -/
theorem decoderTableHasFourHits : Obligations.DecoderTableHasFourHits := by
  intro op
  rcases decodeOpcode_cases op with
    ⟨rfl, h⟩ | ⟨rfl, h⟩ | ⟨rfl, h⟩ | ⟨rfl, h⟩ | ⟨h0, h1, h2, h3, h⟩ <;> rw [h]
  · rfl
  · rfl
  · rfl
  · rfl
  · rw [if_neg h0, if_neg h1, if_neg h2, if_neg h3]

/-- Settles O12: the decoder evaluates to the stated answer on each of the seven byte lists. -/
theorem sampleBytesDecode : Obligations.SampleBytesDecode := by
  unfold Obligations.SampleBytesDecode
  decide

end Sys2Proof.Proofs
end

section
/-! The status byte as a packed register (R70 to R78): the flag writes bit by bit, the flag reads, and the table of the
flag bits. -/

namespace Sys2Proof.Proofs

open Sys2Proof.Machine Sys2Proof.Laws

/-- The layout of P from bit 0 up; bit 5 belongs to no flag (R70). -/
def flagLayout : List (Option Flag) := [some .c, some .z, some .i, some .d, some .b, none, some .v, some .n]

/-- The layout is the inverse of the table `flagBit`. -/
theorem flagLayout_flagBit (f : Flag) : flagLayout[flagBit f]? = some (some f) := by
  cases f <;> rfl

theorem flagBit_injective : Function.Injective flagBit := by
  intro f g h
  have hf := flagLayout_flagBit f
  rw [h, flagLayout_flagBit g] at hf
  cases hf
  rfl

theorem flagBit_ne_five (f : Flag) : flagBit f ≠ 5 := by
  intro h
  have hf := flagLayout_flagBit f
  rw [h] at hf
  cases hf

section
variable (f : Flag) (p : Byte) {k : Nat} (hk : k < 8)
include hk

theorem flagMask_getLsbD : (flagMask f).getLsbD k = decide (k = flagBit f) :=
  flagMask_bit f ⟨k, hk⟩

theorem setFlag_getLsbD : (setFlag f p).getLsbD k = if k = flagBit f then true else p.getLsbD k := by
  rw [setFlag, BitVec.getLsbD_or, flagMask_getLsbD f hk]
  by_cases h : k = flagBit f <;> simp [h]

theorem unsetFlag_getLsbD : (unsetFlag f p).getLsbD k = if k = flagBit f then false else p.getLsbD k := by
  rw [unsetFlag, BitVec.getLsbD_and, BitVec.getLsbD_not, flagMask_getLsbD f hk]
  by_cases h : k = flagBit f <;> simp [h, hk]

theorem toggleFlag_getLsbD :
    (toggleFlag f p).getLsbD k = if k = flagBit f then !(p.getLsbD k) else p.getLsbD k := by
  rw [toggleFlag, BitVec.getLsbD_xor, flagMask_getLsbD f hk]
  by_cases h : k = flagBit f <;> simp [h]

end

theorem setFlag_of_readFlag {f : Flag} {p : Byte} (h : readFlag f p = true) : setFlag f p = p := by
  refine BitVec.eq_of_getLsbD_eq fun k hk => ?_
  rw [setFlag_getLsbD f p hk, ite_eq_right_iff]
  rintro rfl
  exact h.symm

theorem unsetFlag_of_readFlag {f : Flag} {p : Byte} (h : readFlag f p = false) : unsetFlag f p = p := by
  refine BitVec.eq_of_getLsbD_eq fun k hk => ?_
  rw [unsetFlag_getLsbD f p hk, ite_eq_right_iff]
  rintro rfl
  exact h.symm

theorem toggleFlag_toggleFlag (f : Flag) (p : Byte) : toggleFlag f (toggleFlag f p) = p := by
  simp only [toggleFlag, BitVec.xor_assoc, BitVec.xor_self, BitVec.xor_zero]

/-- Settles O36, from the bit equation of each write. -/
theorem flagWritesChangeOneBit : Obligations.FlagWritesChangeOneBit := fun f p =>
  ⟨fun _ hk => setFlag_getLsbD f p hk, fun _ hk => unsetFlag_getLsbD f p hk,
    fun _ hk => toggleFlag_getLsbD f p hk, setFlag_of_readFlag, unsetFlag_of_readFlag, toggleFlag_toggleFlag f p⟩

theorem setFlag_setFlag_comm (f g : Flag) (p : Byte) : setFlag f (setFlag g p) = setFlag g (setFlag f p) := by
  simp only [setFlag, BitVec.or_assoc, BitVec.or_comm (flagMask g)]

theorem unsetFlag_unsetFlag_comm (f g : Flag) (p : Byte) :
    unsetFlag f (unsetFlag g p) = unsetFlag g (unsetFlag f p) := by
  simp only [unsetFlag, BitVec.and_assoc, BitVec.and_comm (~~~ flagMask g)]

/-- Only here the flags have to differ: at each bit at most one of the two writes has effect. -/
theorem setFlag_unsetFlag_comm {f g : Flag} (h : f ≠ g) (p : Byte) :
    setFlag f (unsetFlag g p) = unsetFlag g (setFlag f p) := by
  refine BitVec.eq_of_getLsbD_eq fun k hk => ?_
  simp only [setFlag_getLsbD _ _ hk, unsetFlag_getLsbD _ _ hk]
  by_cases hf : k = flagBit f
  · have hg : k ≠ flagBit g := hf ▸ flagBit_injective.ne h
    rw [if_pos hf, if_neg hg, if_pos hf]
  · rw [if_neg hf, if_neg hf]

/-- Settles O38: two sets and two unsets commute for any flags, a set and an unset for different ones. -/
theorem flagWritesCommute : Obligations.FlagWritesCommute := fun f g p h =>
  ⟨setFlag_setFlag_comm f g p, setFlag_unsetFlag_comm h p, unsetFlag_unsetFlag_comm f g p⟩

/-- Settles O35: the table row by row, and its inverse for the two general clauses. -/
theorem flagBitsAreTheTable : Obligations.FlagBitsAreTheTable :=
  ⟨rfl, rfl, rfl, rfl, rfl, rfl, rfl, fun _ _ h => flagBit_injective h, flagBit_ne_five⟩

/-- Settles O37: a flag's bit of P is that binary digit of P's value. -/
theorem flagReadsGiveTheStoredBits : Obligations.FlagReadsGiveTheStoredBits := fun f p =>
  ⟨Nat.toNat_testBit p.toNat (flagBit f), rfl⟩

end Sys2Proof.Proofs
end

section
/-! The flag policies and the result operations of the ALU (R80 to R84): each policy as arithmetic on the values of its
bytes, and the instructions' use of them. -/

namespace Sys2Proof.Proofs

open Sys2Proof.Machine Sys2Proof.Laws Sys2Proof.Safety

/-- Bit 7 of a byte is its sign, 1 from 128 on. -/
theorem getLsbD_seven (r : Byte) : r.getLsbD 7 = decide (128 ≤ r.toNat) :=
  (BitVec.msb_eq_getLsbD_last r).symm.trans (BitVec.msb_eq_decide r)

theorem znPolicy_z (r : Byte) : (znPolicy r).1 = decide (r.toNat = 0) := by
  rw [znPolicy, Bool.eq_iff_iff, beq_iff_eq, decide_eq_true_iff, BitVec.toNat_eq]
  rfl

theorem znPolicy_n (r : Byte) : (znPolicy r).2 = decide (128 ≤ r.toNat) := getLsbD_seven r

/-- Settles O39: no value is both 0 and at least 128. -/
theorem zeroNegativePolicy : Obligations.ZeroNegativePolicy := by
  intro r
  refine ⟨znPolicy_z r, znPolicy_n r, ?_⟩
  rw [znPolicy_z, znPolicy_n, ← Bool.decide_and, decide_eq_false_iff_not]
  omega

theorem applyZN_bit (r p : Byte) (k : Fin 8) :
    (applyZN r p).getLsbD k =
      if k.val = 7 then r.getLsbD 7 else if k.val = 1 then decide (r = 0x00#8) else p.getLsbD k :=
  writeZN_bit (r == 0x00#8) (r.getLsbD 7) p k

/-- The two bits that the masks of `flagsAfter` clear and set again. -/
theorem flagsAfter_bit (r p : Byte) (k : Fin 8) :
    (flagsAfter r p).getLsbD k =
      if k.val = 7 then r.getLsbD 7 else if k.val = 1 then decide (r = 0x00#8) else p.getLsbD k := by
  have hz : r = 0x00#8 ↔ r.toNat = 0 := BitVec.toNat_eq
  rw [getLsbD_seven, flagsAfter]
  by_cases h7 : 128 ≤ r.toNat <;> by_cases h0 : r.toNat = 0 <;>
    simp only [h7, hz, h0, if_true, if_false, BitVec.getLsbD_or, BitVec.getLsbD_and] <;>
    fin_cases k <;> simp

/-- The policy's flag writes are the mask form (R81). -/
theorem applyZN_eq_flagsAfter (r p : Byte) : applyZN r p = flagsAfter r p :=
  BitVec.eq_of_getLsbD_eq fun k hk => (applyZN_bit r p ⟨k, hk⟩).trans (flagsAfter_bit r p ⟨k, hk⟩).symm

/-- Settles O40, from the bits of the byte that ApplyZN writes. -/
theorem applyZNWritesZAndNOnly : Obligations.ApplyZNWritesZAndNOnly := fun r p =>
  ⟨applyZN_bit r p 1, applyZN_bit r p 7, fun _ hz hn => readFlag_applyZN_of_ne r p hz hn, applyZN_bit r p 5,
    applyZN_eq_flagsAfter r p⟩

/-- Settles O41: each instruction commits the ALU's result with that result's flags, and this commit is ApplyZN. -/
theorem aluPassAndIncResults : Obligations.AluPassAndIncResults := by
  intro v s
  refine ⟨aluResult_pass v, ?_, fun op => ⟨alu_result op v, alu_zn op v⟩, ?_, ?_, ?_⟩
  · rw [aluResult_inc, BitVec.toNat_add]
    rfl
  all_goals
    intro t h
    cases h
    exact ⟨rfl, rfl⟩

/-- No instruction writes a flag other than Z and N; so the carry and overflow policies are bound to none (R85). -/
theorem readFlag_exec_of_ne {i : Instr} {s t : State} (h : exec i s = .next t) {f : Flag} (hz : f ≠ .z) (hn : f ≠ .n) :
    readFlag f t.p = readFlag f s.p := by
  rcases exec_p h with hp | ⟨r, hp⟩
  · rw [hp]
  · rw [hp, readFlag_applyZN_of_ne r s.p hz hn]

theorem carryAdd_result_toNat (a b : Byte) (cin : Bool) :
    (carryAdd a b cin).1.toNat = (a.toNat + b.toNat + cin.toNat) % 256 :=
  BitVec.toNat_ofNat _ 8

/-- The exact sum has at most nine bits, so its ninth is the quotient by 256. -/
theorem carryAdd_carry_toNat (a b : Byte) (cin : Bool) :
    (carryAdd a b cin).2.toNat = (a.toNat + b.toNat + cin.toNat) / 256 := by
  have hc := cin.toNat_le
  rw [carryAdd, Nat.toNat_testBit]
  omega

theorem carryAdd_carry (a b : Byte) (cin : Bool) :
    (carryAdd a b cin).2 = true ↔ 256 ≤ a.toNat + b.toNat + cin.toNat := by
  rw [← Bool.toNat_eq_one, carryAdd_carry_toNat]
  have hc := cin.toNat_le
  omega

/-- NOT b is 255 - b, so the ninth bit of a + NOT b + C says that b and the borrow, which is NOT C, are within a. -/
theorem carrySub_carry (a b : Byte) (cin : Bool) :
    (carrySub a b cin).2 = true ↔ b.toNat + (!cin).toNat ≤ a.toNat := by
  have hborrow : cin.toNat + (!cin).toNat = 1 := by cases cin <;> rfl
  rw [carrySub, carryAdd_carry, BitVec.toNat_not]
  omega

/-- Settles O42, from the value of each output and the carry of the subtract form. -/
theorem carryPolicyIsTheNinthBit : Obligations.CarryPolicyIsTheNinthBit := by
  intro a b cin
  refine ⟨carryAdd_result_toNat a b cin, ?_, rfl, carrySub_carry a b cin,
    fun i s t h => readFlag_exec_of_ne h (by decide) (by decide)⟩
  rw [carryAdd_result_toNat, carryAdd_carry_toNat]
  exact Nat.mod_add_div _ 256

/-- Both inputs differ in sign from the result exactly when they have one sign and the result the other. -/
theorem overflowAdd_eq (a b r : Byte) :
    overflowAdd a b r = ((a.getLsbD 7 == b.getLsbD 7) && (r.getLsbD 7 != a.getLsbD 7)) := by
  rw [overflowAdd, BitVec.getLsbD_and, BitVec.getLsbD_xor, BitVec.getLsbD_xor]
  cases a.getLsbD 7 <;> cases b.getLsbD 7 <;> cases r.getLsbD 7 <;> rfl

/-- Settles O43: the sign comparison, and that V is neither Z nor N. -/
theorem overflowPolicyComparesSigns : Obligations.OverflowPolicyComparesSigns := fun a b r =>
  ⟨overflowAdd_eq a b r, fun _ _ _ h => readFlag_exec_of_ne h (by decide) (by decide)⟩

theorem overflowAdd_iff (a b r : Byte) :
    overflowAdd a b r = true ↔ (128 ≤ a.toNat ↔ 128 ≤ b.toNat) ∧ ¬(128 ≤ r.toNat ↔ 128 ≤ a.toNat) := by
  simp only [overflowAdd_eq, getLsbD_seven, Bool.and_eq_true, beq_iff_eq, bne_iff_ne, ne_eq, decide_eq_decide]

/-- Settles O44: a byte's signed value is its value, less 256 from 128 on; on the sum modulo 256 the sign comparison
then says that the exact signed sum is out of range. -/
theorem overflowIsSignedOverflow : Obligations.OverflowIsSignedOverflow := by
  intro a b cin
  have hc := cin.toNat_le
  rw [overflowAdd_iff, carryAdd_result_toNat, BitVec.toInt_eq_toNat_cond, BitVec.toInt_eq_toNat_cond]
  omega

end Sys2Proof.Proofs
end

section
/-! The bytes at PC (R91 to R95): what reading an instruction says about the bytes it read, and the step that follows
from the bytes at PC alone. -/

namespace Sys2Proof.Proofs

open Sys2Proof.Machine Sys2Proof.Safety Sys2Proof.Laws

/-- The converse of `decodeAt_of_reads`: an instruction is read only where its bytes stand. -/
theorem decodeAt_ok_reads {read : Nat → Option Byte} {start : Nat} {i : Instr} (h : decodeAt read start = .ok i) :
    ∀ k, k < (encode i).length → read (start + k) = (encode i)[k]? := by
  have hone : ∀ op, read start = some op → ∀ k, k < 1 → read (start + k) = [op][k]? := by
    intro op hop k hk
    obtain rfl := Nat.lt_one_iff.1 hk
    exact hop
  rcases decodeAt_cases read start with
    ⟨-, hd⟩ | ⟨hop, hd⟩ | ⟨-, -, hd⟩ | ⟨v, hop, hv, hd⟩ | ⟨hop, hd⟩ | ⟨hop, hd⟩ | ⟨op, -, -, hd⟩ <;>
    rw [hd] at h <;> cases h
  · exact hone _ hop
  · intro k hk
    match k, hk with
    | 0, _ => exact hop
    | 1, _ => exact hv
  · exact hone _ hop
  · exact hone _ hop

theorem fetch_eq_ok_iff {s : State} {i : Instr} :
    fetch s = .ok i ↔ decodeAt (fun j => s.program.read j) s.pc = .ok i := by
  unfold fetch
  cases decodeAt (fun j => s.program.read j) s.pc <;> simp

theorem fetch_ok_opcode {s : State} {i : Instr} (h : fetch s = .ok i) : s.program.read s.pc = some i.opcode :=
  decodeAt_ok_reads (fetch_eq_ok_iff.1 h) 0 (Nat.zero_lt_succ _)

theorem step_of_fetch_ok {s : State} {i : Instr} (hr : s.status = .running) (hf : fetch s = .ok i) :
    step s = exec i s := by
  rw [step_running hr, hf]

/-- The bytes from an index on are those read before the first index without one. -/
theorem bytesFrom_getElem?_eq_some {m : Memory} {n i k : Nat} {b : Byte} :
    (bytesFrom m n i)[k]? = some b ↔
      k < n ∧ (∀ j, j < k → (m.read (i + j)).isSome = true) ∧ m.read (i + k) = some b := by
  induction n generalizing i k with
  | zero => simp [bytesFrom]
  | succ n ih =>
    cases hr : m.read i with
    | none =>
      cases k with
      | zero => simp [bytesFrom, hr]
      | succ k =>
        simp only [bytesFrom, hr, List.getElem?_nil, reduceCtorEq, false_iff]
        rintro ⟨-, hbefore, -⟩
        simpa [hr] using hbefore 0 k.succ_pos
    | some op =>
      cases k with
      | zero => simp [bytesFrom, hr]
      | succ k =>
        rw [bytesFrom, hr, List.getElem?_cons_succ, ih, Nat.forall_lt_succ_left]
        simp [hr, Nat.add_assoc, Nat.add_comm 1]

/-- A byte is missing from the bytes at an index only where the program has none. -/
theorem bytesFrom_getElem?_eq_none {m : Memory} {n i k : Nat} (hk : k < n)
    (hbefore : ∀ j, j < k → (m.read (i + j)).isSome = true) (h : (bytesFrom m n i)[k]? = none) :
    m.read (i + k) = none := by
  by_contra hne
  obtain ⟨b, hb⟩ := Option.ne_none_iff_exists'.1 hne
  rw [bytesFrom_getElem?_eq_some.2 ⟨hk, hbefore, hb⟩] at h
  cases h

theorem decodeAt_of_decode_ok {bytes rest : List Byte} {i : Instr} (h : decode bytes = .ok (i, rest)) :
    decodeAt (fun k => bytes[k]?) 0 = .ok i := by
  unfold decode at h
  cases hd : decodeAt (fun k => bytes[k]?) 0 <;> rw [hd] at h <;> cases h
  rfl

theorem decodeAt_of_decode_error {bytes : List Byte} {e : DecodeError} (h : decode bytes = .error e) :
    decodeAt (fun k => bytes[k]?) 0 = .error e := by
  unfold decode at h
  cases hd : decodeAt (fun k => bytes[k]?) 0 <;> rw [hd] at h <;> cases h
  rfl

/-- Bytes at PC that decode are the bytes of their instruction, so the instruction is fetched. -/
theorem fetch_of_decode_bytesFrom {s : State} {n : Nat} {i : Instr} {rest : List Byte}
    (h : decode (bytesFrom s.program n s.pc) = .ok (i, rest)) : fetch s = .ok i := by
  refine fetch_eq_ok_iff.2 (decodeAt_of_reads fun k hk => ?_)
  have hread := decodeAt_ok_reads (decodeAt_of_decode_ok h) k hk
  rw [List.getElem?_eq_getElem hk, Nat.zero_add] at hread
  rw [List.getElem?_eq_getElem hk]
  exact (bytesFrom_getElem?_eq_some.1 hread).2.2

/-- Settles O16: the step fetches the instruction that the bytes at PC decode to. -/
theorem stepRunsTheDecodedInstruction : Obligations.StepRunsTheDecodedInstruction := by
  intro s n i rest hr h
  exact step_of_fetch_ok hr (fetch_of_decode_bytesFrom h)

/-- An LDA whose operand byte is missing raises ProgramCounterOutOfBounds at the operand's index (R94, R121). -/
theorem step_of_missing_operand {s : State} (hr : s.status = .running) (hop : s.program.read s.pc = some 0xA9#8)
    (hv : s.program.read (s.pc + 1) = none) : step s = .next (s.raise (.programCounterOutOfBounds (s.pc + 1))) := by
  have hentry : decodeOpcode 0xA9#8 = some ⟨.LDA, .immediate, 1, .loadAImm⟩ := rfl
  have hf : fetch s = .error (.programCounterOutOfBounds (s.pc + 1)) := by
    simp only [fetch, decodeAt, hop, hentry, readOperands, hv, errorOf]
  rw [step_running hr, hf]

/-- A failure of reading a byte list's head, as a failure at the index from which the list was taken. -/
def failureFrom (start : Nat) : DecodeError → DecodeError
  | .noOpcode k => .noOpcode (start + k)
  | .unimplementedOpcode k op => .unimplementedOpcode (start + k) op
  | .noOperand k => .noOperand (start + k)

/-- A step on bytes at PC that do not decode; two bytes show every failure, since no instruction is longer. -/
theorem step_of_decode_bytesFrom_error {s : State} {n : Nat} {e : DecodeError} (hr : s.status = .running) (hn : 2 ≤ n)
    (h : decode (bytesFrom s.program n s.pc) = .error e) :
    step s = .next (s.raise (errorOf (failureFrom s.pc e))) := by
  have herr := decodeAt_of_decode_error h
  rcases decodeAt_cases (fun k => (bytesFrom s.program n s.pc)[k]?) 0 with
    ⟨hop, hd⟩ | ⟨-, hd⟩ | ⟨hop, hv, hd⟩ | ⟨v, -, -, hd⟩ | ⟨-, hd⟩ | ⟨-, hd⟩ | ⟨op, hop, hmiss, hd⟩ <;>
    rw [hd] at herr <;> cases herr
  · exact step_of_read_none hr (bytesFrom_getElem?_eq_none (by omega) (by simp) hop)
  · have hop' : s.program.read s.pc = some 0xA9#8 := (bytesFrom_getElem?_eq_some.1 hop).2.2
    exact step_of_missing_operand hr hop' (bytesFrom_getElem?_eq_none hn (by simp [hop']) hv)
  · exact step_of_miss hr (bytesFrom_getElem?_eq_some.1 hop).2.2 hmiss

/-- Settles O17: each clause is one failure of reading the bytes at PC. -/
theorem stepRaisesTheDecodeFailure : Obligations.StepRaisesTheDecodeFailure := fun _ _ hr hn =>
  ⟨fun _ h => step_of_decode_bytesFrom_error hr hn h, fun _ _ h => step_of_decode_bytesFrom_error hr hn h,
    fun _ h => step_of_decode_bytesFrom_error hr hn h⟩

end Sys2Proof.Proofs
end

section
/-! One step of a running core (R90, R97, R98): where a run starts, where a completed step leaves PC and the
status. -/

namespace Sys2Proof.Proofs

open Sys2Proof.Machine Sys2Proof.Laws

/-- Settles O4: an admitted `cmd_run` is `State.startRun` on the supplied bytes. -/
theorem runStartsAtIndexZero : Obligations.RunStartsAtIndexZero := by
  intro w s bytes hs hb
  refine ⟨_, command_run_of_length_le hs hb, ?_⟩
  simp

theorem opcode_eq_zero_iff (i : Instr) : i.opcode = 0x00#8 ↔ i = .brk := by
  cases i <;> simp [Instr.opcode]

/-- A completed step of a running core ran an instruction that it fetched. -/
theorem step_completed {s t : State} (hr : s.status = .running) (h : step s = .next t) (ht : t.status ≠ .faulted) :
    ∃ i, fetch s = .ok i ∧ exec i s = .next t := by
  rcases step_cases hr h with hi | ⟨e, -, rfl⟩
  · exact hi
  · exact absurd (raise_status s e) ht

/-- Settles O19: the fetched instruction's row of the table gives the length, and only BRK has the opcode 0x00. -/
theorem completedStepIsSequential : Obligations.CompletedStepIsSequential := by
  intro s t hr h ht
  obtain ⟨i, hf, hi⟩ := step_completed hr h ht
  obtain ⟨e, hentry, -, -, hlen, -⟩ := tableRow_statement i
  refine ⟨i.opcode, e, fetch_ok_opcode hf, hentry, ?_, ?_, ?_⟩
  · rw [exec_pc hi, hlen, Instr.length, Nat.add_assoc]
  all_goals
    simp only [ne_eq, opcode_eq_zero_iff, exec_status hi, hr]
    split <;> simp [*]

end Sys2Proof.Proofs
end

section
/-! What a step depends on (R100): of a running state, all but its error record, which a completed step carries over. -/

namespace Sys2Proof.Proofs

open Sys2Proof.Machine Sys2Proof.Laws

/-- Reading an instruction looks at PC and the program only. -/
@[simp] theorem fetch_with_error (s : State) (e : Option ErrorRecord) : fetch { s with error := e } = fetch s := rfl

/-- An instruction neither reads nor writes the error record. -/
theorem exec_with_error {i : Instr} {s t : State} (h : exec i s = .next t) (e : Option ErrorRecord) :
    exec i { s with error := e } = .next { t with error := e } := by
  cases i <;> cases h <;> rfl

theorem exec_not_faulted {i : Instr} {s t : State} (hr : s.status = .running) (h : exec i s = .next t) :
    t.status ≠ .faulted := by
  rw [exec_status h, hr]
  split <;> decide

/-- With another error record a step that raises ends in the same state, and one that completes in the same state up to
its error record. -/
theorem step_with_error {s t : State} (hr : s.status = .running) (h : step s = .next t) (e : Option ErrorRecord) :
    t.status = .faulted ∧ step { s with error := e } = .next t ∨
    t.status ≠ .faulted ∧ t.error = s.error ∧ step { s with error := e } = .next { t with error := e } := by
  rw [step_running (s := { s with error := e }) hr, fetch_with_error]
  rcases step_cases hr h with ⟨i, hf, hi⟩ | ⟨e', hf, rfl⟩ <;> rw [hf]
  · exact .inr ⟨exec_not_faulted hr hi, exec_error hi, exec_with_error hi e⟩
  · exact .inl ⟨rfl, rfl⟩

/-- Settles O20: the two states differ in their error record only. -/
theorem stepIsAFunctionOfRegistersAndProgram : Obligations.StepIsAFunctionOfRegistersAndProgram := by
  intro s s' hr hr' ha hx hp hpc hprog
  have hs' : s' = { s with error := s'.error } := by
    cases s'
    simp_all
  obtain ⟨t, ht⟩ := step_total s
  rcases step_with_error hr ht s'.error with ⟨hft, ht'⟩ | ⟨hft, he, ht'⟩ <;> rw [← hs'] at ht'
  · exact ⟨t, t, ht, ht', rfl, rfl, rfl, rfl, rfl, rfl, fun _ => rfl, fun h => absurd hft h⟩
  · exact ⟨t, _, ht, ht', rfl, rfl, rfl, rfl, rfl, rfl, fun h => absurd h hft, fun _ => ⟨he, rfl⟩⟩

end Sys2Proof.Proofs
end

section
/-! Runs (R97, R99): a run ends within the program's length and one step, and a launched straight line of instructions
takes one step for each. -/

namespace Sys2Proof.Proofs

open Sys2Proof.Machine Sys2Proof.Safety Sys2Proof.Laws

theorem run_succ {s t : State} (h : step s = .next t) (n : Nat) :
    Host.Core.run core (n + 1) s = Host.Core.run core n t := by
  have hstep : core.step s = .next t := h
  simp only [Host.Core.run, hstep]

/-- The run from a state ends within a number of steps, all of them taken while Running. -/
def RunEndsWithin (bound : Nat) (s : State) : Prop :=
  ∃ n t, n ≤ bound ∧ Host.Core.run core n s = .next t ∧ ended t ∧
    ∀ k u, k < n → Host.Core.run core k s = .next u → u.status = .running

theorem runEndsWithin_of_ended {s : State} (h : ended s) (bound : Nat) : RunEndsWithin bound s :=
  ⟨0, s, Nat.zero_le _, rfl, h, fun _ _ hk => absurd hk (Nat.not_lt_zero _)⟩

theorem runEndsWithin_step {s t : State} {bound : Nat} (hr : s.status = .running) (h : step s = .next t)
    (ht : RunEndsWithin bound t) : RunEndsWithin (bound + 1) s := by
  obtain ⟨n, u, hn, hrun, hend, hall⟩ := ht
  refine ⟨n + 1, u, Nat.succ_le_succ hn, (run_succ h n).trans hrun, hend, fun k v hk hv => ?_⟩
  cases k with
  | zero =>
    cases hv
    exact hr
  | succ k => exact hall k v (Nat.lt_of_succ_lt_succ hk) ((run_succ h k).symm.trans hv)

/-- A step of a running core goes on with PC past the instruction, or ends the run. -/
theorem step_progress {s t : State} (hr : s.status = .running) (h : step s = .next t) :
    t.status = .running ∧ s.pc < t.pc ∨ ended t := by
  rcases step_cases hr h with ⟨i, -, hi⟩ | ⟨e, -, rfl⟩
  · have hst := exec_status hi
    split at hst
    · exact .inr (.inl hst)
    · have hpc := exec_pc hi
      unfold Instr.length at hpc
      exact .inl ⟨hst.trans hr, by omega⟩
  · exact .inr (.inr rfl)

theorem not_ended_of_running {s : State} (hr : s.status = .running) : ¬ ended s := by
  simp [ended, hr]

/-- PC rises with every step that goes on and stays within the program, so it bounds the steps to come. -/
theorem runEndsWithin_of_inv {w bound : Nat} {s : State} (hi : Inv w s) (hr : s.status = .running)
    (hb : s.program.len < s.pc + bound) : RunEndsWithin bound s := by
  induction bound generalizing s with
  | zero => exact absurd hi.pc_range (Nat.not_le_of_lt hb)
  | succ bound ih =>
    obtain ⟨t, ht⟩ := step_total s
    refine runEndsWithin_step hr ht ?_
    rcases step_progress hr ht with ⟨hrt, hpc⟩ | hend
    · refine ih (everyStepKeepsCoreInv w s t hi ht) hrt ?_
      rw [step_program ht]
      omega
    · exact runEndsWithin_of_ended hend bound

theorem program_len_le_of_wf {m : Memory} {w : Nat} (h : m.wf w = true) : m.len ≤ 2 ^ w := by
  obtain ⟨bytes, rfl, hb⟩ := (wf_iff_ofBytes m w).1 h
  rwa [ofBytes_len]

/-- Settles O48, by induction on the number of steps that PC still admits. -/
theorem everyRunEndsWithinItsLength : Obligations.EveryRunEndsWithinItsLength := by
  intro w s hi hr
  refine ⟨program_len_le_of_wf hi.program_wf, fun t h ht => ?_, fun hpc => ?_, ?_⟩
  · exact ((step_progress hr h).resolve_right (not_ended_of_running ht)).2
  · exact ⟨_, step_of_read_none hr ((read_eq_none_iff_of_wf hi.program_wf _).2 hpc), rfl⟩
  · exact runEndsWithin_of_inv hi hr (by omega)

/-- An instruction's effect on A, X and P is the one its rule states, with the mask form of the policy (R81). -/
theorem exec_regsOf {i : Instr} {s t : State} (h : exec i s = .next t) : regsOf t = regsAfter (regsOf s) i := by
  cases i with
  | brk => cases h; rfl
  | _ =>
    cases h
    simp only [regsAfter, regsOf, ← applyZN_eq_flagsAfter, ← aluResult_inc]
    rfl

theorem encode_length (i : Instr) : (encode i).length = i.length := Nat.add_comm _ 1

theorem encodeAll_cons (i : Instr) (is : List Instr) : encodeAll (i :: is) = encode i ++ encodeAll is :=
  List.flatMap_cons

/-- From the first byte of a straight line and its BRK, wherever they stand in the program. -/
theorem run_straightLine {is : List Instr} {before tail : List Byte} {s : State} (hr : s.status = .running)
    (hprog : s.program = Memory.ofBytes (before ++ encodeAll is ++ encode .brk ++ tail)) (hpc : s.pc = before.length)
    (hnb : ∀ i ∈ is, i ≠ .brk) :
    ∃ u, Host.Core.run core (is.length + 1) s = .next u ∧ u.status = .halted ∧ u.error = s.error ∧
      regsOf u = is.foldl regsAfter (regsOf s) ∧ u.pc = s.pc + (encodeAll is).length + 1 := by
  induction is generalizing before s with
  | nil =>
    have hf : fetch s = .ok .brk := fetch_of_encode_at_pc (by simpa [encodeAll] using hprog) hpc
    exact ⟨_, run_succ (step_of_fetch_ok hr hf) 0, rfl, rfl, rfl, rfl⟩
  | cons i is ih =>
    obtain ⟨hi, hnb⟩ := List.forall_mem_cons.1 hnb
    obtain ⟨t, ht⟩ := exec_completes i s
    have hf : fetch s = .ok i :=
      fetch_of_encode_at_pc (tail := encodeAll is ++ encode .brk ++ tail)
        (by simpa [encodeAll_cons] using hprog) hpc
    have hstep : step s = .next t := (step_of_fetch_ok hr hf).trans ht
    have hrt : t.status = .running := by rw [exec_status ht, if_neg hi, hr]
    have hprogt : t.program = Memory.ofBytes ((before ++ encode i) ++ encodeAll is ++ encode .brk ++ tail) := by
      simpa [exec_program ht, encodeAll_cons] using hprog
    have hpct : t.pc = (before ++ encode i).length := by
      rw [exec_pc ht, hpc, List.length_append, encode_length]
    obtain ⟨u, hrun, hhalt, herr, hregs, hpcu⟩ := ih hrt hprogt hpct hnb
    refine ⟨u, (run_succ hstep _).trans hrun, hhalt, herr.trans (exec_error ht), ?_, ?_⟩
    · rw [hregs, exec_regsOf ht, List.foldl_cons]
    · rw [hpcu, exec_pc ht, encodeAll_cons, List.length_append, encode_length]
      omega

/-- Settles O49: the launch puts PC at the first byte of the straight line. -/
theorem straightLineRunHaltsWithItsEffect : Obligations.StraightLineRunHaltsWithItsEffect := by
  intro is tail s hs hnb hlen
  obtain ⟨u, hrun, hhalt, herr, hregs, hpc⟩ := run_straightLine (before := [])
    (s := s.startRun (Memory.ofBytes (encodeAll is ++ encode .brk ++ tail))) rfl rfl rfl hnb
  exact ⟨_, u, command_run_of_length_le hs hlen, hrun, hhalt, herr, hregs, by simpa using hpc⟩

end Sys2Proof.Proofs
end

section
/-! The register instructions LDA, TAX and INX (R105 to R107): the effect of each in full, the step where its bytes stand,
and what it leaves unchanged. -/

namespace Sys2Proof.Proofs

open Sys2Proof.Machine Sys2Proof.Safety Sys2Proof.Laws

/-- Where the bytes of an instruction stand at PC, a step runs it (R96). -/
theorem step_of_reads {s : State} {i : Instr} (hr : s.status = .running)
    (h : ∀ k, k < (encode i).length → s.program.read (s.pc + k) = (encode i)[k]?) : step s = exec i s :=
  step_of_fetch_ok hr (fetch_eq_ok_iff.2 (decodeAt_of_reads h))

/-- An instruction without operands is its opcode byte alone (R56). -/
theorem step_of_read_opcode {s : State} {i : Instr} (hr : s.status = .running) (hi : i.operands = [])
    (hop : s.program.read s.pc = some i.opcode) : step s = exec i s := by
  refine step_of_reads hr fun k hk => ?_
  rw [encode, hi] at hk ⊢
  obtain rfl := Nat.lt_one_iff.1 hk
  exact hop

theorem step_of_read_lda {s : State} {imm8 : Byte} (hr : s.status = .running)
    (hop : s.program.read s.pc = some 0xA9#8) (hv : s.program.read (s.pc + 1) = some imm8) :
    step s = exec (.lda imm8) s := by
  refine step_of_reads hr fun k hk => ?_
  match k, hk with
  | 0, _ => exact hop
  | 1, _ => exact hv

theorem exec_lda (imm8 : Byte) (s : State) :
    exec (.lda imm8) s = .next { s with a := imm8, p := flagsAfter imm8 s.p, pc := s.pc + 2 } := by
  rw [← applyZN_eq_flagsAfter]
  rfl

theorem exec_tax (s : State) :
    exec .tax s = .next { s with x := s.a, p := flagsAfter s.a s.p, pc := s.pc + 1 } := by
  rw [← applyZN_eq_flagsAfter]
  rfl

theorem exec_inx (s : State) :
    exec .inx s = .next { s with x := s.x + 1#8, p := flagsAfter (s.x + 1#8) s.p, pc := s.pc + 1 } := by
  rw [← applyZN_eq_flagsAfter, ← aluResult_inc]
  rfl

/-- Settles O23: the step where both bytes stand is `exec`, and without the second one it raises the missing operand. -/
theorem ldaLoadsItsImmediate : Obligations.LdaLoadsItsImmediate := fun imm8 s =>
  ⟨rfl, exec_lda imm8 s, fun hr hop hv => (step_of_read_lda hr hop hv).trans (exec_lda imm8 s),
    fun hr hop hv => step_of_missing_operand hr hop hv⟩

/-- Settles O24: the step where the opcode stands is `exec`. -/
theorem taxCopiesAToX : Obligations.TaxCopiesAToX := fun s =>
  ⟨rfl, exec_tax s, fun hr hop => (step_of_read_opcode (i := .tax) hr rfl hop).trans (exec_tax s)⟩

/-- Settles O25: the new X is the sum of bytes X + 1, whose value is the sum modulo 256. -/
theorem inxIncrementsXModulo256 : Obligations.InxIncrementsXModulo256 := fun s =>
  ⟨rfl, s.x + 1#8, BitVec.toNat_add s.x 1#8, exec_inx s,
    fun hr hop => (step_of_read_opcode (i := .inx) hr rfl hop).trans (exec_inx s)⟩

section
variable {i : Instr} {s t : State} (h : exec i s = .next t)
include h

/-- Bit 5 of P is stored, and the policy does not write it (R24). -/
theorem exec_p_bit_five : t.p.getLsbD 5 = s.p.getLsbD 5 := by
  rcases exec_p h with hp | ⟨r, hp⟩
  · rw [hp]
  · rw [hp]
    exact applyZN_bit_of_ne r s.p (k := 5) (by decide) (by decide)

/-- What every instruction but BRK leaves unchanged, whichever register it writes. -/
theorem exec_frame (hi : i ≠ .brk) :
    t.status = s.status ∧ t.error = s.error ∧
    (∀ f, f ≠ .z → f ≠ .n → readFlag f t.p = readFlag f s.p) ∧ t.p.getLsbD 5 = s.p.getLsbD 5 ∧
    ∀ j, t.program.read j = s.program.read j := by
  refine ⟨?_, exec_error h, fun _ hz hn => readFlag_exec_of_ne h hz hn, exec_p_bit_five h, fun j => ?_⟩
  · rw [exec_status h, if_neg hi]
  · rw [exec_program h]

end

/-- Settles O27: the frame of every instruction but BRK, and X, which LDA does not write. -/
theorem ldaFrame : Obligations.LdaFrame := by
  intro imm8 s t h
  have hx : t.x = s.x := by
    cases h
    rfl
  exact ⟨hx, exec_frame h nofun⟩

/-- Settles O28: the frame of every instruction but BRK, and A, which TAX and INX do not write. -/
theorem taxAndInxFrame : Obligations.TaxAndInxFrame := by
  intro i s t hi h
  have hbrk : i ≠ .brk := by
    rcases hi with rfl | rfl <;> decide
  have ha : t.a = s.a := by
    rcases hi with rfl | rfl <;> cases h <;> rfl
  exact ⟨ha, exec_frame h hbrk⟩

end Sys2Proof.Proofs
end

section
/-! BRK (R115): its effect in full, the step where its byte stands, the only way to Halted, and what it leaves
unchanged. -/

namespace Sys2Proof.Proofs

open Sys2Proof.Machine Sys2Proof.Laws

theorem exec_brk (s : State) : exec .brk s = .next { s with pc := s.pc + 1, status := .halted } := rfl

/-- From Running, only BRK leads to Halted. -/
theorem exec_halts_iff {i : Instr} {s t : State} (hr : s.status = .running) (h : exec i s = .next t) :
    t.status = .halted ↔ i = .brk := by
  rw [exec_status h, hr]
  split <;> simp [*]

theorem read_pc_of_step_halted {s t : State} (hr : s.status = .running) (h : step s = .next t)
    (ht : t.status = .halted) : s.program.read s.pc = some 0x00#8 := by
  obtain ⟨i, hf, hi⟩ := step_completed hr h (by simp [ht])
  obtain rfl := (exec_halts_iff hr hi).1 ht
  exact fetch_ok_opcode hf

/-- Settles O26: the step where the opcode stands is `exec`, and a step that reaches Halted fetched BRK. -/
theorem brkHalts : Obligations.BrkHalts := fun s =>
  ⟨rfl, exec_brk s,
    fun hr m hop => (step_of_read_opcode (s := { s with program := m }) (i := .brk) hr rfl hop).trans (exec_brk _),
    fun _ hr h ht => read_pc_of_step_halted hr h ht⟩

/-- Settles O29: BRK writes PC and the run status alone. -/
theorem brkFrame : Obligations.BrkFrame := by
  intro s t h
  obtain rfl := Host.Outcome.next.inj ((exec_brk s).symm.trans h)
  exact ⟨rfl, rfl, rfl, rfl, fun _ => rfl⟩

end Sys2Proof.Proofs
end

section
/-! Exceptions (R120 to R125): the step that takes one, which failure it records, and what it leaves unchanged. -/

namespace Sys2Proof.Proofs

open Sys2Proof.Machine Sys2Proof.Laws

theorem step_of_fetch_error {s : State} {e : ErrorRecord} (hr : s.status = .running) (hf : fetch s = .error e) :
    step s = .next (s.raise e) := by
  rw [step_running hr, hf]

/-- From Running, only taking an exception leads to Faulted. -/
theorem step_faulted {s t : State} (hr : s.status = .running) (h : step s = .next t) (ht : t.status = .faulted) :
    ∃ e, fetch s = .error e ∧ t = s.raise e := by
  rcases step_cases hr h with ⟨i, -, hi⟩ | he
  · exact absurd ht (exec_not_faulted hr hi)
  · exact he

/-- Settles O34: the faulted state is the state before with the record and the status written, and no run hides it from
the host. -/
theorem faultsArePrecise : Obligations.FaultsArePrecise := by
  intro s t hr h ht
  obtain ⟨e, -, rfl⟩ := step_faulted hr h ht
  exact ⟨rfl, rfl, rfl, rfl, rfl, rfl, _, hostRead_stopped (by simp), rfl, rfl⟩

/-- Settles O33: a failed fetch is taken by `State.raise`, and the codes are those of the table of kinds. -/
theorem faultEntryWritesRecordAndStatus : Obligations.FaultEntryWritesRecordAndStatus :=
  ⟨fun s e hf hr => ⟨s.raise e, step_of_fetch_error hr hf, rfl, rfl⟩, rfl,
    fun _ _ => ⟨rfl, rfl, rfl, rfl, rfl, rfl⟩⟩

section
variable {w : Nat} {s : State} (hr : s.status = .running) (hw : s.program.wf w = true)
include hr hw

theorem step_of_len_le_pc (hpc : s.program.len ≤ s.pc) :
    step s = .next (s.raise (.programCounterOutOfBounds s.pc)) :=
  step_of_read_none hr ((read_eq_none_iff_of_wf hw _).2 hpc)

theorem step_of_operand_past_len (hop : s.program.read s.pc = some 0xA9#8) (hpc : s.program.len ≤ s.pc + 1) :
    step s = .next (s.raise (.programCounterOutOfBounds (s.pc + 1))) :=
  step_of_missing_operand hr hop ((read_eq_none_iff_of_wf hw _).2 hpc)

end

/-- Settles O31: in the canonical form an index not below the length is one without a byte. -/
theorem programCounterOutOfBoundsIsRaised : Obligations.ProgramCounterOutOfBoundsIsRaised := fun _ _ hr hw =>
  ⟨fun hpc => ⟨_, _, step_of_len_le_pc hr hw hpc, rfl, rfl, rfl, rfl⟩,
    fun hop hpc => ⟨_, _, step_of_operand_past_len hr hw hop hpc, rfl, rfl, rfl, rfl⟩⟩

/-- LDA is the only opcode whose entry announces an operand byte, and it announces one (R55). -/
theorem decodeOpcode_operandLen {op : Byte} {e : TableEntry} (h : decodeOpcode op = some e) :
    e.operandLen = if op = 0xA9#8 then 1 else 0 := by
  rcases decodeOpcode_cases op with ⟨rfl, hd⟩ | ⟨rfl, hd⟩ | ⟨rfl, hd⟩ | ⟨rfl, hd⟩ | ⟨-, -, -, -, hd⟩ <;>
    rw [hd] at h <;> cases h <;> rfl

/-- An instruction is read where the opcode has an entry and all the operand bytes it announces are in the program. -/
theorem fetch_ok_of_hit {w : Nat} {s : State} {op : Byte} {e : TableEntry} (hw : s.program.wf w = true)
    (hop : s.program.read s.pc = some op) (hd : decodeOpcode op = some e)
    (hlen : s.pc + e.operandLen < s.program.len) : ∃ i, fetch s = .ok i := by
  rcases fetch_cases s with
    ⟨hop', -⟩ | ⟨-, hf⟩ | ⟨hop', hv, -⟩ | ⟨v, -, -, hf⟩ | ⟨-, hf⟩ | ⟨-, hf⟩ | ⟨op', hop', hmiss, -⟩
  · simp [hop] at hop'
  · exact ⟨_, hf⟩
  · obtain rfl := Option.some.inj (hop.symm.trans hop')
    rw [decodeOpcode_operandLen hd, if_pos rfl] at hlen
    exact absurd ((read_eq_none_iff_of_wf hw _).1 hv) (Nat.not_le_of_lt hlen)
  · exact ⟨_, hf⟩
  · exact ⟨_, hf⟩
  · exact ⟨_, hf⟩
  · obtain rfl := Option.some.inj (hop.symm.trans hop')
    simp [hd] at hmiss

theorem faulted_of_step_eq_raise {s t : State} {e : ErrorRecord} (h : step s = .next t)
    (he : step s = .next (s.raise e)) : t.status = .faulted ∧ t.error = some e := by
  obtain rfl := Host.Outcome.next.inj (h.symm.trans he)
  exact ⟨rfl, rfl⟩

/-- Settles O32: one clause for each place where reading the instruction fails, and one for the instruction that is read.
An operand read can only fail at LDA's single operand byte. -/
theorem firstFailureInStepOrderIsRaised : Obligations.FirstFailureInStepOrderIsRaised := by
  intro w s hr hw
  obtain ⟨t, ht⟩ := step_total s
  refine ⟨t, ht, fun hpc => ?_, fun op hop hmiss => ?_, fun op e k hop hd hk hpc _ => ?_, fun op e hop hd hlen => ?_⟩
  · exact faulted_of_step_eq_raise ht (step_of_len_le_pc hr hw hpc)
  · exact faulted_of_step_eq_raise ht (step_of_miss hr hop hmiss)
  · rw [decodeOpcode_operandLen hd] at hk
    split at hk
    case isTrue hlda =>
      obtain rfl := Nat.lt_one_iff.1 hk
      exact faulted_of_step_eq_raise ht (step_of_operand_past_len hr hw (hlda ▸ hop) hpc)
    case isFalse => exact absurd hk (Nat.not_lt_zero k)
  · obtain ⟨i, hf⟩ := fetch_ok_of_hit hw hop hd hlen
    have hi : exec i s = .next t := (step_of_fetch_ok hr hf).symm.trans ht
    exact ⟨exec_not_faulted hr hi, exec_error hi⟩

end Sys2Proof.Proofs
end

section
/-! Reset and the host's sequence for one run (R145, R147, R148). -/

namespace Sys2Proof.Proofs

open Sys2Proof.Machine Sys2Proof.Safety Sys2Proof.Laws

theorem command_reset_of_stopped {s : State} (hs : s.status ≠ .running) (w : Nat) :
    s.command .reset w = .next s.cmdReset :=
  command_stopped hs _ _

theorem command_preload_of_stopped {s : State} (hs : s.status ≠ .running) (a x p : Byte) (w : Nat) :
    s.command (.preload a x p) w = .next (s.cmdPreload a x p) :=
  command_stopped hs _ _

theorem cmdReset_stopped (s : State) : s.cmdReset.status ≠ .running := by
  simp

/-- Settles O6: reset leaves a stopped core and preload keeps it stopped, so the run of an admitted program starts. -/
theorem bootSequenceReachesARun : Obligations.BootSequenceReachesARun := by
  intro s a x p bytes hs hb
  have hreset := cmdReset_stopped s
  have hloaded : (s.cmdReset.cmdPreload a x p).status ≠ .running := hreset
  refine ⟨_, _, _, command_reset_of_stopped hs _, command_preload_of_stopped hreset a x p _,
    command_run_of_length_le hloaded hb, ?_⟩
  simp

/-- Settles O1: `cmd_reset` outside a run is `State.cmdReset`, whose fields are the construction state's. -/
theorem resetLeavesConstructionState : Obligations.ResetLeavesConstructionState := by
  refine ⟨⟨rfl, rfl, rfl, rfl, rfl, rfl⟩, fun s hs => ⟨_, command_reset_of_stopped hs _, ?_⟩⟩
  simp

/-- The only field that a reset takes from the state before is the program, which it keeps (R147). -/
theorem cmdReset_cmdReset (s : State) : s.cmdReset.cmdReset = s.cmdReset := rfl

/-- Settles O2: every field that `State.cmdReset` writes is a constant, and the core it leaves is stopped, so that it can
be reset again. -/
theorem resetForgetsThePreviousState : Obligations.ResetForgetsThePreviousState := by
  intro s s' hs hs'
  have hagain : s.cmdReset.command .reset = .next s.cmdReset := by
    rw [command_reset_of_stopped (cmdReset_stopped s), cmdReset_cmdReset]
  refine ⟨_, _, command_reset_of_stopped hs _, command_reset_of_stopped hs' _, ?_⟩
  simp [hagain]

/-- Settles O45: the core is Idle without a record, at index 0 of the empty program, which every PC_WIDTH admits. -/
theorem coreInvHoldsAtReset : Obligations.CoreInvHoldsAtReset := by
  intro w
  have hempty : (Memory.ofBytes []).wf w = true := (wf_iff_ofBytes _ w).2 ⟨[], rfl, Nat.zero_le _⟩
  exact inv_of_not_faulted hempty (Nat.zero_le _) (by decide) rfl

end Sys2Proof.Proofs
end

section
/-! The round trip of the encoding (R55, R56, R60): a byte list decodes to an instruction exactly where the instruction's
bytes stand at its head. -/

namespace Sys2Proof.Proofs

/-- `decodeAt_of_reads` and its converse at the head of a byte list. -/
theorem decodeAt_zero_eq_ok_iff_prefix {bytes : List Byte} {i : Instr} :
    decodeAt (fun k => bytes[k]?) 0 = .ok i ↔ encode i <+: bytes := by
  rw [List.prefix_iff_getElem?]
  constructor
  · intro h k hk
    rw [← List.getElem?_eq_getElem hk, ← decodeAt_ok_reads h k hk, Nat.zero_add]
  · intro h
    refine decodeAt_of_reads fun k hk => ?_
    rw [Nat.zero_add, h k hk, List.getElem?_eq_getElem hk]

theorem decode_eq_ok_iff {bytes rest : List Byte} {i : Instr} :
    decode bytes = .ok (i, rest) ↔ bytes = encode i ++ rest := by
  constructor
  · intro h
    have hat := decodeAt_of_decode_ok h
    have hrest : bytes.drop (encode i).length = rest := by
      simpa [decode, hat, encode_length] using h
    rw [← hrest]
    exact List.prefix_append_drop (decodeAt_zero_eq_ok_iff_prefix.1 hat)
  · rintro rfl
    have hat := decodeAt_zero_eq_ok_iff_prefix.2 (List.prefix_append (encode i) rest)
    simp only [decode, hat, ← encode_length, List.drop_left]

/-- Every term of `Instr` carries the operand bytes of its format. -/
theorem instr_wellFormed (i : Instr) : i.wellFormed = true := by
  cases i <;> rfl

/-- Settles O13: the instruction's bytes stand at the head, and the decoder leaves what is behind them. -/
theorem decodeInvertsEncode : Obligations.DecodeInvertsEncode := fun _ _ _ =>
  decode_eq_ok_iff.2 rfl

/-- Settles O14: a byte list decodes to an instruction only where that instruction's bytes stand. -/
theorem encodeInvertsDecode : Obligations.EncodeInvertsDecode := fun _ _ i h =>
  ⟨decode_eq_ok_iff.1 h, instr_wellFormed i⟩

end Sys2Proof.Proofs
end

section
/-! A step of a stopped core (R26; log 3). -/

namespace Sys2Proof.Proofs

/-- Settles O18: outside Running, the cycle answers the state it is given and fetches nothing. -/
theorem stoppedCoreStaysAsItIs : Obligations.StoppedCoreStaysAsItIs := fun _ =>
  Laws.step_not_running

end Sys2Proof.Proofs
end
